-- ==== Sys2Proof/Word.lean ====
section
/-!
DEFINITION. The words of the unit (00_scope.md R7, R8): every value is unsigned, bit 0 is the least
significant bit.
-/

namespace Sys2Proof

/-- A byte of the stream, or a command word: 8 bits (R7, R64). -/
abbrev Byte := BitVec 8

/-- The value bus of a response: 16 bits (R7, R63). -/
abbrev Half := BitVec 16

end Sys2Proof
end

