-- ==== Sys2Proof/Config.lean ====
section
/-!
DEFINITION. The parameters the hardware is built with (00_scope.md R6) and the free values.

`ALIGN_PRESENT`, `SRC` and `SRC_STALL` are fields of State, so that one model covers every variant and
every stream; `LATENCY` is timing (70_reset_and_hazards.md R170) and has no counterpart here.
-/

namespace Sys2Proof

/-- `N_MAX`: the largest legal `n` of `READ n` (R6). -/
def Config.nMax : Nat := 16

/-- `BITBUF_WIDTH` (R6; 92_eei_decisions.md D4: 32 for this hardware). -/
abbrev Config.bitbufWidth : Nat := 32

/-- `BITCNT_WIDTH` (R6; D5). -/
abbrev Config.bitcntWidth : Nat := 5

/-- FREE VALUE (log 3): what `bitbuf` holds after the k-th `EndOfInput`; "`bitbuf` and `bitcnt` are
unspecified" (40_bitreader_commands.md R89(c), D8). It has no body, so nothing can be proved of it. -/
opaque Config.freeBitbuf : Nat → BitVec Config.bitbufWidth

/-- FREE VALUE (log 3): what `bitcnt` holds after the k-th `EndOfInput` (R89(c), D8). -/
opaque Config.freeBitcnt : Nat → BitVec Config.bitcntWidth

end Sys2Proof
end

