-- ==== Sys2Proof/Syntax.lean ====
section
/-!
DEFINITION. The commands: one constructor for each row of spec/opcode_table.json (30_encoding.md R64,
R66), and the names the spec gives some of them (R69).
-/

namespace Sys2Proof

/-- A command of the unit. -/
inductive Instr where
  /-- `READ n`: the next `n` bits of the stream (40_bitreader_commands.md R80). `n` is the command
  word's 5-bit field; `Instr.wellFormed` says which values it may have. -/
  | read (n : BitVec 5)
  /-- `ALIGN`: discard the buffered bits of the current partial byte (R84). -/
  | align
  deriving DecidableEq, Repr

/-- The pseudo-instructions, "each a name for one real command" (30_encoding.md R69). -/
inductive Pseudo where
  | rdbit | rdhdr | rdbyte | rdword | nopr
  deriving DecidableEq, Repr

/-- What each pseudo-instruction stands for (R69). -/
def Pseudo.expand : Pseudo → Instr
  | .rdbit => .read 1
  | .rdhdr => .read 3
  | .rdbyte => .read 8
  | .rdword => .read 16
  | .nopr => .read 0

end Sys2Proof
end

