-- ==== Sys2Proof/WellFormed.lean ====
section
/-!
DEFINITION. Which terms of `Instr` are commands of the unit (30_encoding.md R66).
-/

namespace Sys2Proof

/-- "`n` is 0 to 16" (00_scope.md R7; 30_encoding.md R66); `ALIGN` has no operand (R84). -/
def Instr.wellFormed : Instr → Bool
  | .read n => n.toNat ≤ Config.nMax
  | .align => true

end Sys2Proof
end

