-- ==== Sys2Proof/Decode.lean ====
section
/-!
DEFINITION. The command word (30_encoding.md R64 to R67): the decoder, total on the 256 words, and
after it the encoder.
-/

namespace Sys2Proof

/-- Why a word selects no command (30_encoding.md R67). -/
inductive Reserved where
  /-- `READ` with `n` = 17 to 31: words `0x11` to `0x1F`. -/
  | readCountAbove16
  /-- `op = 001` with `n ≠ 0`: words `0x21` to `0x3F`. -/
  | alignCountNotZero
  /-- `0x20` when `ALIGN_PRESENT = false`. -/
  | alignAbsent
  /-- `op` = `010` to `111`: words `0x40` to `0xFF`. -/
  | unknownOp
  deriving DecidableEq, Repr

/-- What a word is: one command, or reserved (R66). -/
inductive Decoded where
  | command (i : Instr)
  | reserved (why : Reserved)
  deriving DecidableEq, Repr

/-- `op = cmd[7:5]` (R64). -/
def opField (w : Byte) : BitVec 3 := w.extractLsb' 5 3

/-- `n = cmd[4:0]` (R64, R65). -/
def countField (w : Byte) : BitVec 5 := w.extractLsb' 0 5

/-- The command map (R66), for hardware built with this `ALIGN_PRESENT`. -/
def decode (alignPresent : Bool) (w : Byte) : Decoded :=
  if opField w = 0b000 then
    if (countField w).toNat ≤ Config.nMax then .command (.read (countField w))
    else .reserved .readCountAbove16
  else if opField w = 0b001 then
    if countField w ≠ 0 then .reserved .alignCountNotZero
    else if alignPresent then .command .align
    else .reserved .alignAbsent
  else .reserved .unknownOp

/-- The word of a command (R64; the rows of opcode_table.json). -/
def encode : Instr → Byte
  | .read n => 0b000#3 ++ n
  | .align => 0b001#3 ++ 0#5

/-- The command the decoder reads from a row of spec/opcode_table.json: both rows have 8 bits, and the
table holds `ALIGN` for hardware that has it. -/
def decodeTableWord (nbits w : Nat) : Option Instr :=
  match decode true (BitVec.ofNat 8 (w % 2 ^ nbits)) with
  | .command i => some i
  | .reserved _ => none

end Sys2Proof
end

