-- ==== Sys2Proof/Machine/State.lean ====
section
/-!
DEFINITION. The whole state of one reader and of what stands around it (10_state.md R20 to R32), as
plain data.
-/

namespace Sys2Proof.Machine

/-- Reasons of the model's reading of an outcome (60_exceptions.md R153). -/
inductive Fault where
  /-- The response is `EndOfInput` (60_exceptions.md R140, R143, R153). `exec` and `step` do not raise
  it: they answer the next state that R81 and R143 give, with the response in it; `Safety.reading`
  raises it from that response. Safe: the reading forgets a next state, it adds none (log 1). -/
  | endOfInput
  deriving DecidableEq, Repr

/-- Reasons for giving no meaning. -/
inductive Refusal where
  /-- `exec`'s arm for an instruction with no meaning yet; no arm uses it. Safe. -/
  | notModelled (mnemonic : String)
  /-- The response is `BadRequest`: a reserved word, to which a model gives no meaning (30_encoding.md
  R67; 60_exceptions.md R141, R153). Raised by `Safety.reading` alone; `step` answers with the
  hardware's `BadRequest`. Safe: the reading forgets a next state, it adds none (log 2). -/
  | reservedWord
  deriving DecidableEq, Repr

/-- A response (30_encoding.md R63). "A model gives a failure response no data value at all". -/
inductive Response where
  /-- `OK` with `rsp_data = zext_16(v)`. -/
  | ok (v : Half)
  | endOfInput
  | badRequest
  deriving DecidableEq, Repr

/-- How long the byte source keeps one pull waiting (`SRC_STALL`, 00_scope.md R6; 20_memory.md R44),
counted in steps of the model. -/
inductive Delay where
  | after (steps : Nat)
  | never
  deriving DecidableEq, Repr

/-- What the client or the board does at the ports (30_encoding.md R60; 70_reset_and_hazards.md R160,
R162). -/
inductive Event where
  /-- The client offers a command word and holds it until it is accepted. -/
  | cmd (w : Byte)
  /-- The client takes the response, waiting for one where there is none yet. -/
  | take
  /-- The client does nothing for one step. -/
  | idle
  /-- `rst` is asserted, with a fresh byte source attached: its bytes, and how it delays its pulls. -/
  | rst (src : List Byte) (delays : List Delay)
  deriving DecidableEq, Repr

/-- One reader instance (R32), its byte source, its ports, and what the client and the board will do. -/
structure State where
  /-- "accumulated, not-yet-consumed bits, right-aligned" (R20). -/
  bitbuf : BitVec Config.bitbufWidth
  /-- "number of valid bits currently in `bit_buffer`" (R21). -/
  bitcnt : BitVec Config.bitcntWidth
  /-- The sticky failure flag (R22). -/
  failed : Bool
  /-- Ghost: stream bits delivered by successful `READ`s since reset (R25). -/
  consumed : Nat
  /-- Ghost: stream bits dropped by `ALIGN` since reset (R25). -/
  discarded : Nat
  /-- `SRC`: the bytes of the session (20_memory.md R43). -/
  src : List Byte
  /-- `src_pos`: bytes pulled since reset (R25, R43). -/
  srcPos : Nat
  /-- `SRC_STALL`: the delays of the pulls to come, one entry a pull, the next pull's first; a pull with
  no entry is answered at once (20_memory.md R44; log 6). -/
  delays : List Delay
  /-- The command accepted and held, because the source has not answered one of its pulls (R44, R60;
  log 7). -/
  inFlight : Option Instr
  /-- The response the unit offers and the client has not taken (R60, R61). -/
  rsp : Option Response
  /-- `ALIGN_PRESENT`, fixed when the hardware is built (00_scope.md R6; log 4). -/
  alignPresent : Bool
  /-- What the client and the board do at the ports, the next first (log 8). -/
  env : List Event
  /-- MODEL'S OWN: the responses the client has taken since reset, oldest first (log 9). -/
  taken : List Response
  /-- MODEL'S OWN: which free value comes next (log 3). -/
  freeCtr : Nat
  deriving DecidableEq, Repr

/-- The machine right after reset (R31; 70_reset_and_hazards.md R160), as this hardware is built
(`ALIGN_PRESENT = false`, R6), with no byte source's contents, no stall and no client yet (logs 5, 6,
8). -/
def State.reset : State where
  bitbuf := 0
  bitcnt := 0
  failed := false
  consumed := 0
  discarded := 0
  src := []
  srcPos := 0
  delays := []
  inFlight := none
  rsp := none
  alignPresent := false
  env := []
  taken := []
  freeCtr := 0

end Sys2Proof.Machine
end

