-- ==== Sys2Proof/Machine/Flags.lean ====
section
/-!
DEFINITION. The unit's only flag (10_state.md R22, R28) and the status of a response (30_encoding.md
R63).
-/

namespace Sys2Proof.Machine

/-- `rsp_status` (R63). `0b11` is never driven. -/
def Response.status : Response → BitVec 2
  | .ok _ => 0b00
  | .endOfInput => 0b01
  | .badRequest => 0b10

/-- The value a response carries; a failure carries none (R63; 60_exceptions.md R140). -/
def Response.value : Response → Option Half
  | .ok v => some v
  | .endOfInput => none
  | .badRequest => none

/-- Whether a response reports success. -/
def Response.isOk (r : Response) : Bool := r.value.isSome

/-- `failed` after a command answers `r`: sticky, set by a failure, never cleared by a command (R22). -/
def failedAfter (failed : Bool) (r : Response) : Bool := failed || !r.isOk

end Sys2Proof.Machine
end

