-- ==== Sys2Proof/Machine/Operands.lean ====
section
/-!
DEFINITION. Operands and results: the bit fields of 00_scope.md R8 and R9, and what a command reads
from the buffer.
-/

namespace Sys2Proof.Machine

/-- `mask(n) = (1 << n) - 1` (R8), as wide as `bitbuf`. -/
def mask (n : Nat) : BitVec Config.bitbufWidth := (1 <<< n) - 1

/-- `zext_BITBUF_WIDTH(b) << k` (40_bitreader_commands.md R81): a byte placed above `k` buffered bits. -/
def placeByte (b : Byte) (k : Nat) : BitVec Config.bitbufWidth := b.setWidth Config.bitbufWidth <<< k

/-- `zext_16` of the masked `n`-bit value (R81; 30_encoding.md R63). -/
def valueOf (buf : BitVec Config.bitbufWidth) (n : Nat) : Half := (buf &&& mask n).setWidth 16

/-- `READ`'s operand: `n = zext(cmd[4:0])`, "an unsigned count, not scaled, not sign-extended" (R65). -/
def countOperand (n : BitVec 5) : Nat := n.toNat

/-- `sbit(S, i)`: "bit `i mod 8` of byte `i div 8`" (R9; 20_memory.md R40). False past the end, where
the spec gives no bit. -/
def sbit (S : List Byte) (i : Nat) : Bool :=
  match S[i / 8]? with
  | some b => b.getLsbD (i % 8)
  | none => false

/-- `sum over j in 0..n-1 of sbit(S, s + j) << j` (20_memory.md R41): the field of `n` bits at stream
bit `s`. -/
def streamField (S : List Byte) (s : Nat) : Nat → Nat
  | 0 => 0
  | n + 1 => streamField S s n + (sbit S (s + n)).toNat <<< n

/-- Fields of the given widths, one after the other from stream bit `s` on (20_memory.md R41, R49). -/
def streamFields (S : List Byte) (s : Nat) : (widths : List Nat) → List Nat
  | [] => []
  | n :: ns => streamField S s n :: streamFields S (s + n) ns

end Sys2Proof.Machine
end

