-- ==== Sys2Proof/Machine/Ops.lean ====
section
/-!
DEFINITION. The named operations on the state: the pull (20_memory.md R43), what a command does to the
buffer (40_bitreader_commands.md R81, R85), how it answers and how it fails (60_exceptions.md R140,
R141), the hold of a silent source (R44) and reset (70_reset_and_hazards.md R160).

There is no trap entry and no trap return (60_exceptions.md R146, R147): a failure is `respond` with a
failure's response, and `restart` is the only way back.
-/

namespace Sys2Proof.Machine

/-- The source's position moved past one byte (R43); the pull's delay entry is used up. -/
def State.advanceSource (s : State) : State :=
  { s with srcPos := s.srcPos + 1, delays := s.delays.tail }

/-- The source answered `End`: "`src_pos` unchanged" (R43); the pull's delay entry is used up. -/
def State.meetEnd (s : State) : State := { s with delays := s.delays.tail }

/-- What a pull is answered with (R43), and the state after it. -/
inductive Pull where
  | byte (b : Byte) (s : State)
  | ended (s : State)
  deriving DecidableEq, Repr

/-- `PullByte()` (R43). -/
def pullByte (s : State) : Pull :=
  match s.src[s.srcPos]? with
  | some b => .byte b s.advanceSource
  | none => .ended s.meetEnd

/-- `bitbuf <- bitbuf | (zext(b) << bitcnt); bitcnt <- bitcnt + 8` (R81). -/
def State.pushByte (b : Byte) (s : State) : State :=
  { s with
    bitbuf := s.bitbuf ||| placeByte b s.bitcnt.toNat
    bitcnt := s.bitcnt + 8 }

/-- How a refill ends. -/
inductive Refill where
  | filled (s : State)
  | ended (s : State)
  deriving DecidableEq, Repr

/-- `while bitcnt < n` of R81: "lazy refill, one byte per pull", at most `pulls` pulls. -/
def refill (n : Nat) : (pulls : Nat) → State → Refill
  | 0, s => .filled s
  | pulls + 1, s =>
    if s.bitcnt.toNat < n then
      match pullByte s with
      | .byte b t => refill n pulls (t.pushByte b)
      | .ended t => .ended t
    else .filled s

/-- "A `READ n` performs between 0 and 2 pulls" (20_memory.md R46). -/
def maxPulls : Nat := 2

/-- A command answers `r`: `failed` as R22 says, the response on the port, nothing in flight any more
(30_encoding.md R61). Every command, and every failure, ends here. -/
def State.respond (r : Response) (s : State) : State :=
  { s with failed := failedAfter s.failed r, rsp := some r, inFlight := none }

/-- `bitbuf >> n`, `bitcnt - n`, `consumed + n` (R81). -/
def State.consumeBits (n : Nat) (s : State) : State :=
  { s with
    bitbuf := s.bitbuf >>> n
    bitcnt := s.bitcnt - BitVec.ofNat Config.bitcntWidth n
    consumed := s.consumed + n }

/-- The end of a successful `READ n`: the value is taken from the buffer before it is shifted (R81). -/
def State.deliver (n : Nat) (s : State) : State :=
  (s.consumeBits n).respond (.ok (valueOf s.bitbuf n))

/-- `ALIGN`'s effect: `discarded + bitcnt`, an empty buffer (R85). -/
def State.discardBits (s : State) : State :=
  { s with discarded := s.discarded + s.bitcnt.toNat, bitbuf := 0, bitcnt := 0 }

/-- "`bitbuf` and `bitcnt` are unspecified from here on" (R81, R89(c)): free values (log 3). DESIGN CHOICE:
they are drawn by the reader's own `freeCtr`, so two readers (20_memory.md R53; 60_exceptions.md R150)
with the same `freeCtr` draw the same values, where the spec relates them in no way (logs 3, 19). -/
def State.loseBuffer (s : State) : State :=
  { s with
    bitbuf := Config.freeBitbuf s.freeCtr
    bitcnt := Config.freeBitcnt s.freeCtr
    freeCtr := s.freeCtr + 1 }

/-- Raising `EndOfInput` on a pull answered `End` (60_exceptions.md R140). -/
def State.raiseEndOfInput (s : State) : State := s.loseBuffer.respond .endOfInput

/-- Raising `BadRequest`: "`failed <- 1`, no pull, no other state change" (60_exceptions.md R141). -/
def State.raiseBadRequest (s : State) : State := s.respond .badRequest

/-- How many pulls `READ n` makes from here, the one answered `End` included: one for each byte it
lacks, `ceil((n - bitcnt) / 8)` (20_memory.md R46), but none after the source's end. -/
def State.pullsMade (s : State) (n : Nat) : Nat :=
  min ((n - s.bitcnt.toNat + 7) / 8) (s.src.length - s.srcPos + 1)

/-- Whether the source has yet to answer one of the pulls `READ n` makes (20_memory.md R44). -/
def State.sourceSilent (s : State) (n : Nat) : Bool :=
  (s.delays.take (s.pullsMade n)).any (· != .after 0)

/-- One step of waiting: the first delay that is not over gets shorter, unless it never ends. -/
def tickDelays : List Delay → List Delay
  | [] => []
  | .after 0 :: ds => .after 0 :: tickDelays ds
  | .after (k + 1) :: ds => .after k :: ds
  | .never :: ds => .never :: ds

/-- The hold of a command whose pull is not answered: "the reader waits, and nothing else in the unit
changes" (R44). -/
def State.hold (i : Instr) (s : State) : State :=
  { s with delays := tickDelays s.delays, inFlight := some i }

/-- The client takes the response (30_encoding.md R60, R61). -/
def State.takeResponse (r : Response) (s : State) : State :=
  { s with rsp := none, taken := s.taken ++ [r] }

/-- `cmd_ready`: "1 only when no command is in flight and no response is pending" (R60). -/
def State.cmdReady (s : State) : Bool := s.inFlight.isNone && s.rsp.isNone

/-- Reset, with a fresh byte source attached (R160, R162): every piece of state at its reset value, a
command in flight and a pending response dropped. How the hardware was built stays, what the client
and the board do next stays, and the free values go on (log 13). -/
def State.restart (src : List Byte) (delays : List Delay) (s : State) : State :=
  { State.reset with
    src := src
    delays := delays
    alignPresent := s.alignPresent
    env := s.env
    freeCtr := s.freeCtr }

end Sys2Proof.Machine
end

