-- ==== Sys2Proof/Machine/Align.lean ====
section
/-!
DEFINITION. `ALIGN` (40_bitreader_commands.md R84, R85).
-/

namespace Sys2Proof.Machine

/-- `ALIGN`, the checks in the order of 60_exceptions.md R144: in hardware built without it the word is
reserved (30_encoding.md R67); a failed reader answers `EndOfInput` (R143); otherwise R85. -/
def execAlign (s : State) : Host.Outcome State Fault Refusal :=
  if !s.alignPresent then .next s.raiseBadRequest
  else if s.failed then .next (s.respond .endOfInput)
  else .next (s.discardBits.respond (.ok 0))

end Sys2Proof.Machine
end

