-- ==== Sys2Proof/Machine/Read.lean ====
section
/-!
DEFINITION. `READ n` (40_bitreader_commands.md R80 to R83).
-/

namespace Sys2Proof.Machine

/-- `READ n` past the checks on the word and on `failed`, the source answering: R81's refill, then the
value, or `EndOfInput`. -/
def readBits (n : Nat) (s : State) : State :=
  match refill n maxPulls s with
  | .filled t => t.deliver n
  | .ended t => t.raiseEndOfInput

/-- `READ n`, the checks in the order of 60_exceptions.md R144: a count above 16 is a reserved word
(R141); a failed reader answers `EndOfInput` and changes nothing (R143); a silent source holds the
command (20_memory.md R44); otherwise R81. -/
def execRead (n : BitVec 5) (s : State) : Host.Outcome State Fault Refusal :=
  if Config.nMax < countOperand n then .next s.raiseBadRequest
  else if s.failed then .next (s.respond .endOfInput)
  else if s.sourceSilent (countOperand n) then .next (s.hold (.read n))
  else .next (readBits (countOperand n) s)

end Sys2Proof.Machine
end

