-- ==== Sys2Proof/Machine/Dispatch.lean ====
section
/-!
DEFINITION. One arm per command, each one call of its meaning.
-/

namespace Sys2Proof.Machine

def exec (i : Instr) (s : State) : Host.Outcome State Fault Refusal :=
  match i with
  | .read n => Sys2Proof.Machine.execRead n s
  | .align => Sys2Proof.Machine.execAlign s

end Sys2Proof.Machine
end

