-- ==== Sys2Proof/Machine/Port.lean ====
section
/-!
DEFINITION. What a step does at the ports (30_encoding.md R60 to R63): accepting a word, going on with
the command in flight, and the port's signals as functions of the state.
-/

namespace Sys2Proof.Machine

/-- The unit accepts the word `w`: the decoder's check comes "before any state is read" (60_exceptions.md
R141, R144), then the command runs (70_reset_and_hazards.md R170). -/
def accept (w : Byte) (s : State) : Host.Outcome State Fault Refusal :=
  match decode s.alignPresent w with
  | .command i => exec i s
  | .reserved _ => .next s.raiseBadRequest

/-- Nothing new at the ports: the command in flight goes on, and an idle unit "holds its state"
(60_exceptions.md R152). -/
def continueInFlight (s : State) : Host.Outcome State Fault Refusal :=
  match s.inFlight with
  | some i => exec i s
  | none => .next s

/-- One step, by what the client and the board do next (log 8). Reset comes first (R160); a word is
accepted only when the port is ready (R60, R61); a client taking the response waits for one. -/
def portStep (s : State) : Host.Outcome State Fault Refusal :=
  match s.env with
  | [] => continueInFlight s
  | .idle :: rest => continueInFlight { s with env := rest }
  | .rst src delays :: rest => .next (State.restart src delays { s with env := rest })
  | .cmd w :: rest => if s.cmdReady then accept w { s with env := rest } else continueInFlight s
  | .take :: rest =>
    match s.rsp with
    | some r => .next (State.takeResponse r { s with env := rest })
    | none => continueInFlight s

/-- `rsp_valid` (R60). -/
def State.rspValid (s : State) : Bool := s.rsp.isSome

/-- `rsp_status` while `rsp_valid` (R63). -/
def State.rspStatus (s : State) : Option (BitVec 2) := s.rsp.map Response.status

/-- What the hardware drives on `rsp_data` while `rsp_valid` (R63): a failure's `0x0000` "carries no
value" and "no client may read it" (log 15). -/
def State.rspData (s : State) : Option Half := s.rsp.map fun r => r.value.getD 0

/-- `src_req` between steps: a command in flight waits for the source (R60, R62). -/
def State.srcReq (s : State) : Bool := s.inFlight.isSome

/-- The next stream bit's index, "the nearest analogue of a program counter" (10_state.md R27). -/
def State.streamPos (s : State) : Nat := s.consumed + s.discarded

end Sys2Proof.Machine
end

