-- ==== Sys2Proof/Machine/Step.lean ====
section
/-!
DEFINITION. One step of the machine, and how the next command is placed for it.
-/

namespace Sys2Proof.Machine

/-- One step: one command from acceptance to response (70_reset_and_hazards.md R170), one step of a
hold, one response taken, one reset, or nothing. -/
def step (s : State) : Host.Outcome State Fault Refusal := portStep s

/-- The client offers the word next, and the port is ready for it (30_encoding.md R60). A command word
is 8 bits. -/
def State.withFetchWord (s : State) (nbits w : Nat) : State :=
  { s with
    env := .cmd (BitVec.ofNat 8 (w % 2 ^ nbits)) :: s.env
    inFlight := none
    rsp := none }

end Sys2Proof.Machine
end

