-- ==== Sys2Proof/Machine/Assembler.lean ====
section
/-!
DEFINITION. The spec's assembler text (30_encoding.md R68, R69): "one command per line, mnemonic in
capitals, the count as a decimal number; `;` starts a comment". Notation only; log 21 says what the rule
leaves open.
-/

namespace Sys2Proof.Machine

/-- What a line of text is. -/
inductive AsmLine where
  /-- Nothing but blanks and a comment, or nothing at all: no command, and no error (DESIGN CHOICE, log
  21). -/
  | blank
  | word (w : Byte)
  /-- No command of the unit. -/
  | invalid
  deriving DecidableEq, Repr

/-- The line up to its comment. -/
def stripComment : List Char → List Char
  | [] => []
  | c :: cs => if c = ';' then [] else c :: stripComment cs

/-- The line's words; `current` is the word being read. -/
def lineWords : (line current : List Char) → List (List Char)
  | [], [] => []
  | [], current => [current]
  | c :: cs, current =>
    if c = ' ' then
      match current with
      | [] => lineWords cs []
      | _ => current :: lineWords cs []
    else lineWords cs (current ++ [c])

/-- One decimal digit. -/
def digitValue (c : Char) : Option Nat :=
  if 48 ≤ c.toNat ∧ c.toNat ≤ 57 then some (c.toNat - 48) else none

/-- A decimal number; `acc` is the value read so far. -/
def decimal : List Char → (acc : Nat) → Option Nat
  | [], acc => some acc
  | c :: cs, acc =>
    match digitValue c with
    | some d => decimal cs (10 * acc + d)
    | none => none

/-- The pseudo-instructions' names (R69). -/
def pseudoNamed (name : List Char) : Option Pseudo :=
  if name = ['R', 'D', 'B', 'I', 'T'] then some .rdbit
  else if name = ['R', 'D', 'H', 'D', 'R'] then some .rdhdr
  else if name = ['R', 'D', 'B', 'Y', 'T', 'E'] then some .rdbyte
  else if name = ['R', 'D', 'W', 'O', 'R', 'D'] then some .rdword
  else if name = ['N', 'O', 'P', 'R'] then some .nopr
  else none

/-- The command a line's words name (R68, R69); `ALIGN` "only when ALIGN_PRESENT". -/
def parseWords (alignPresent : Bool) : List (List Char) → Option Instr
  | [name] =>
    if name = ['A', 'L', 'I', 'G', 'N'] then (if alignPresent then some .align else none)
    else (pseudoNamed name).map Pseudo.expand
  | [name, count] =>
    if name = ['R', 'E', 'A', 'D'] then
      match decimal count 0 with
      | some n => if n ≤ Config.nMax then some (.read (BitVec.ofNat 5 n)) else none
      | none => none
    else none
  | _ => none

/-- One line of assembler text (R68). DESIGN CHOICE: R68's own form only. 95_test_vectors.md's shorthands
are no such lines: `READ 1 x5` is invalid, and of `READ 1 ; READ 2` the rest is a comment. R68 is silent on a line that holds no command, empty or
with a comment only: it is `blank`, gives no word and is not invalid (log 21). -/
def assembleLine (alignPresent : Bool) (line : List Char) : AsmLine :=
  match lineWords (stripComment line) [] with
  | [] => .blank
  | ws =>
    match parseWords alignPresent ws with
    | some i => .word (encode i)
    | none => .invalid

end Sys2Proof.Machine
end

