-- ==== Sys2Proof/Machine/Client.lean ====
section
/-!
DEFINITION. How a client of the reader issues a command and takes its response (41_client_requests.md
R100; 30_encoding.md R61). The clients hold no state of the reader: each operation takes the reader's
state and answers with the one it leaves (log 16).
-/

namespace Sys2Proof.Machine

/-- What a client can fail with (41_client_requests.md R128), and the reader's two failures, which a
client passes on unchanged (R120). -/
inductive ClientError where
  | invalidHuffmanLengths
  | invalidSymbol
  | malformedHeader
  | invalidDistance
  | malformedBlock
  | unsupportedBlockType
  | endOfInput
  | badRequest
  deriving DecidableEq, Repr

/-- How an operation of a client ends, with the reader's state. A failure carries no result (R129). -/
inductive Reply (α : Type) where
  | done (a : α) (s : State)
  | fail (e : ClientError) (s : State)
  /-- The source never answers a pull: neither success nor failure (60_exceptions.md R153). -/
  | stuck (s : State)
  /-- A loop of the model reached its bound: MODEL'S OWN, and no operation of a client ends so (log
  18). -/
  | outOfFuel (s : State)
  deriving DecidableEq, Repr

/-- Go on with the result, or pass a failure on unchanged: "handlers propagate failure upward
unchanged" (R128). -/
def Reply.andThen {α β : Type} (r : Reply α) (f : α → State → Reply β) : Reply β :=
  match r with
  | .done a s => f a s
  | .fail e s => .fail e s
  | .stuck s => .stuck s
  | .outOfFuel s => .outOfFuel s

/-- Run a command until it is answered, and take the response; at most `steps` steps. DESIGN CHOICE: it
does not look at `cmdReady`. A client that keeps 30_encoding.md R61 and 70_reset_and_hazards.md R172
begins on a ready port; begun with a command held or a response not taken, which the port would make
it wait for, it overwrites them (log 16). -/
def await (i : Instr) : (steps : Nat) → State → Reply Response
  | 0, s => .stuck s
  | steps + 1, s =>
    match exec i s with
    | .next t =>
      match t.inFlight, t.rsp with
      | none, some r => .done r (t.takeResponse r)
      | _, _ => await i steps t
    | .fault _ => .stuck s
    | .refused _ => .stuck s

/-- The steps a delay lasts; one that never ends has no length. -/
def Delay.length : Delay → Nat
  | .after k => k
  | .never => 0

/-- Steps enough for any command whose pulls are all answered one day: the delays of the two pulls a
command can make (20_memory.md R46), and the command itself. -/
def State.patience (s : State) : Nat :=
  ((s.delays.take maxPulls).map Delay.length).sum + 1

/-- Issue a command and take its response; begun on a ready port, as `await` (log 16). -/
def issue (i : Instr) (s : State) : Reply Response := await i s.patience s

/-- The value of a successful response; the reader's failures are passed on (R120). -/
def valueOrFail (r : Response) (s : State) : Reply Nat :=
  match r with
  | .ok v => .done v.toNat s
  | .endOfInput => .fail .endOfInput s
  | .badRequest => .fail .badRequest s

/-- A field of `n` bits, `n` at most 16: one `READ n` (R100). -/
def readField (n : Nat) (s : State) : Reply Nat :=
  (issue (.read (BitVec.ofNat 5 n)) s).andThen valueOrFail

/-- Several fields of one width, in stream order. -/
def readFields (n : Nat) : (count : Nat) → State → Reply (List Nat)
  | 0, s => .done [] s
  | count + 1, s =>
    (readField n s).andThen fun v s =>
      (readFields n count s).andThen fun vs s => .done (v :: vs) s

/-- Reads of the given widths, one after the other: the command streams of 20_memory.md R49. -/
def readWidths : (widths : List Nat) → State → Reply (List Nat)
  | [], s => .done [] s
  | n :: ns, s =>
    (readField n s).andThen fun v s =>
      (readWidths ns s).andThen fun vs s => .done (v :: vs) s

/-- Bits the source and the buffer still hold: an upper bound of the successful reads to come. -/
def State.bitsLeft (s : State) : Nat := 8 * (s.src.length - s.srcPos) + s.bitcnt.toNat

end Sys2Proof.Machine
end

