-- ==== Sys2Proof/Machine/Huffman.lean ====
section
/-!
DEFINITION. The canonical Huffman table and its walk (41_client_requests.md R104 to R113).
-/

namespace Sys2Proof.Machine

/-- `HuffmanTable{counts, symbols}` (R107). -/
structure HuffmanTable where
  /-- 16 entries, indexed by length; entry 0 is not used (R105). -/
  counts : List Nat
  symbols : List Nat
  deriving DecidableEq, Repr

/-- The largest code length (R105). -/
def maxCodeLength : Nat := 15

/-- Step 1 (R105): "Count how many symbols use each length 1..15". -/
def countLengths (lengths : List Nat) : List Nat :=
  (List.range (maxCodeLength + 1)).map fun len => lengths.count len

/-- Step 2 (R106): `left = 2*left - counts[len]` for each length in turn; `none` once it is negative. -/
def validateCounts : (counts : List Nat) → (left : Int) → Option Int
  | [], left => some left
  | c :: cs, left => if 2 * left - c < 0 then none else validateCounts cs (2 * left - c)

/-- `offs[len + 1] = offs[len] + counts[len]`, from the offset of the first length on (R107). -/
def prefixSums : (counts : List Nat) → (start : Nat) → List Nat
  | [], _ => []
  | c :: cs, start => start :: prefixSums cs (start + c)

/-- Step 4 (R107), for the symbols from `sym` on: `symbols[offs[len]] <- sym; offs[len] += 1`. -/
def placeSymbols : (lengths : List Nat) → (sym : Nat) → (offs symbols : List Nat) → List Nat
  | [], _, _, symbols => symbols
  | 0 :: ls, sym, offs, symbols => placeSymbols ls (sym + 1) offs symbols
  | l :: ls, sym, offs, symbols =>
    placeSymbols ls (sym + 1) (offs.set l (offs.getD l 0 + 1)) (symbols.set (offs.getD l 0) sym)

/-- Table construction (R105 to R107); `none` is `InvalidHuffmanLengths` (R106). -/
def buildTable (lengths : List Nat) : Option HuffmanTable :=
  let counts := countLengths lengths
  match validateCounts (counts.drop 1) 1 with
  | none => none
  | some _ =>
    let offs := 0 :: prefixSums (counts.drop 1) 0
    let room := List.replicate (counts.drop 1).sum 0
    some { counts := counts, symbols := placeSymbols lengths 0 offs room }

/-- `buildTable`, as an operation of a client. -/
def buildOrFail (lengths : List Nat) (s : State) : Reply HuffmanTable :=
  match buildTable lengths with
  | some t => .done t s
  | none => .fail .invalidHuffmanLengths s

/-- The loop of `DecodeSymbol` over the lengths whose counts are given (R109): one `READ 1` a length,
the code assembled most significant bit first (R104). A table built by `buildTable` has an entry for
every code it accepts; for any other table a missing entry fails too (log 17). -/
def walkLengths (symbols : List Nat) :
    (counts : List Nat) → (code first index : Nat) → State → Reply Nat
  | [], _, _, _, s => .fail .invalidSymbol s
  | c :: cs, code, first, index, s =>
    (readField 1 s).andThen fun bit s =>
      if (code <<< 1 ||| bit) < first + c then
        match symbols[index + ((code <<< 1 ||| bit) - first)]? with
        | some sym => .done sym s
        | none => .fail .invalidSymbol s
      else walkLengths symbols cs (code <<< 1 ||| bit) ((first + c) <<< 1) (index + c) s

/-- `DecodeSymbol(table)` (R109). -/
def decodeSymbol (t : HuffmanTable) (s : State) : Reply Nat :=
  walkLengths t.symbols (t.counts.drop 1) 0 0 0 s

/-- `first_len` of R108: `first_1 = 0`, `first_(len+1) = (first_len + counts[len]) << 1`. Length 0 has
no codes. -/
def firstCode (lengths : List Nat) : Nat → Nat
  | 0 => 0
  | 1 => 0
  | len + 2 => (firstCode lengths (len + 1) + lengths.count (len + 1)) <<< 1

/-- The canonical code of a symbol (R108): the codes of one length are consecutive, in ascending symbol
order, from `first_len` on. -/
def canonicalCode (lengths : List Nat) (sym : Nat) : Nat :=
  firstCode lengths (lengths.getD sym 0) + (lengths.take sym).count (lengths.getD sym 0)

/-- A symbol's code as it stands in the stream: most significant bit first (R104). -/
def codeBits (lengths : List Nat) (sym : Nat) : List Bool :=
  (List.range (lengths.getD sym 0)).map fun j =>
    (canonicalCode lengths sym).testBit (lengths.getD sym 0 - 1 - j)

/-- The fixed literal/length lengths (R111). -/
def fixedLengths : List Nat :=
  List.replicate 144 8 ++ List.replicate 112 9 ++ List.replicate 24 7 ++ List.replicate 8 8

/-- The fixed distance lengths: "all 30 symbols → length 5" (R112). -/
def fixedDistanceLengths : List Nat := List.replicate 30 5

end Sys2Proof.Machine
end

