-- ==== Sys2Proof/Machine/BlockBody.lean ====
section
/-!
DEFINITION. The block body: literals and back-references (41_client_requests.md R114 to R121).
-/

namespace Sys2Proof.Machine

/-- `lookup_lens` and `lookup_len_bits`: base length and extra-bit count of length symbol `257 + idx`.
PRESUMED by the spec itself: RFC 1951 §3.2.5 (R116, D22, K1; log 20). -/
def lengthTable : List (Nat × Nat) :=
  [(3, 0), (4, 0), (5, 0), (6, 0), (7, 0), (8, 0), (9, 0), (10, 0)] ++
  [(11, 1), (13, 1), (15, 1), (17, 1), (19, 2), (23, 2), (27, 2), (31, 2)] ++
  [(35, 3), (43, 3), (51, 3), (59, 3), (67, 4), (83, 4), (99, 4), (115, 4)] ++
  [(131, 5), (163, 5), (195, 5), (227, 5), (258, 0)]

/-- `lookup_dists` and `lookup_dist_bits`: base distance and extra-bit count of a distance symbol.
PRESUMED by the spec itself: RFC 1951 §3.2.5 (R117, D22, K2; log 20). -/
def distanceTable : List (Nat × Nat) :=
  [(1, 0), (2, 0), (3, 0), (4, 0), (5, 1), (7, 1), (9, 2), (13, 2), (17, 3), (25, 3)] ++
  [(33, 4), (49, 4), (65, 5), (97, 5), (129, 6), (193, 6), (257, 7), (385, 7), (513, 8), (769, 8)] ++
  [(1025, 9), (1537, 9), (2049, 10), (3073, 10), (4097, 11), (6145, 11), (8193, 12), (12289, 12),
    (16385, 13), (24577, 13)]

/-- `base + extra_value`, "the extra bits read as one field" (R116, R117); `READ 0` where there are
none (R118). A symbol the table lacks fails (log 17: none is decoded, R114, R117). -/
def readExtended (table : List (Nat × Nat)) (idx : Nat) (s : State) : Reply Nat :=
  match table[idx]? with
  | some (base, extra) => (readField extra s).andThen fun v s => .done (base + v) s
  | none => .fail .malformedBlock s

/-- The copy (R121): `output.append(output[length(output) - dist])`, `len` times. A distance outside the
output appends nothing (log 17: R119 is checked before, and a distance is at least 1, R117). -/
def copyBack (dist : Nat) : (len : Nat) → (out : List Byte) → List Byte
  | 0, out => out
  | len + 1, out =>
    match out[out.length - dist]? with
    | some b => copyBack dist len (out ++ [b])
    | none => copyBack dist len out

/-- Length, distance symbol, distance, and the copy, for length symbol `257 + idx` (R114, R119). -/
def backReference (distCode : HuffmanTable) (idx : Nat) (out : List Byte) (s : State) :
    Reply (List Byte) :=
  (readExtended lengthTable idx s).andThen fun len s =>
  (decodeSymbol distCode s).andThen fun didx s =>
  (readExtended distanceTable didx s).andThen fun dist s =>
    if out.length < dist then .fail .invalidDistance s
    else .done (copyBack dist len out) s

/-- The block body loop (R114), with the output so far. -/
def blockBody (lenCode distCode : HuffmanTable) :
    (fuel : Nat) → (out : List Byte) → State → Reply (List Byte)
  | 0, _, s => .outOfFuel s
  | fuel + 1, out, s =>
    (decodeSymbol lenCode s).andThen fun sym s =>
      if sym < 256 then blockBody lenCode distCode fuel (out ++ [BitVec.ofNat 8 sym]) s
      else if sym = 256 then .done out s
      else if sym ≤ 285 then
        (backReference distCode (sym - 257) out s).andThen fun out s =>
          blockBody lenCode distCode fuel out s
      else .fail .malformedBlock s

/-- `blockBody` with a bound no stream reaches: each round delivers at least one bit (log 18). -/
def decodeBody (lenCode distCode : HuffmanTable) (out : List Byte) (s : State) : Reply (List Byte) :=
  blockBody lenCode distCode (s.bitsLeft + 1) out s

/-- The fixed block handler (R111, R112): the tables are built for every block (R127). -/
def fixedBlock (out : List Byte) (s : State) : Reply (List Byte) :=
  (buildOrFail fixedLengths s).andThen fun lenCode s =>
  (buildOrFail fixedDistanceLengths s).andThen fun distCode s =>
    decodeBody lenCode distCode out s

end Sys2Proof.Machine
end

