-- ==== Sys2Proof/Machine/Dynamic.lean ====
section
/-!
DEFINITION. The dynamic block handler (41_client_requests.md R122 to R127).
-/

namespace Sys2Proof.Machine

/-- The counts of a dynamic header (R122). -/
structure DynamicCounts where
  nlen : Nat
  ndist : Nat
  ncode : Nat
  deriving DecidableEq, Repr

/-- The three reads, 5, 5 and 4 bits, and then both checks (R122). -/
def readCounts (s : State) : Reply DynamicCounts :=
  (readField 5 s).andThen fun hlit s =>
  (readField 5 s).andThen fun hdist s =>
  (readField 4 s).andThen fun hclen s =>
    if 286 < hlit + 257 ∨ 30 < hdist + 1 then .fail .malformedHeader s
    else .done { nlen := hlit + 257, ndist := hdist + 1, ncode := hclen + 4 } s

/-- `order[0..18]` (R123). -/
def codeLengthOrder : List Nat := [16, 17, 18, 0, 8, 7, 9, 6, 10, 5, 11, 4, 12, 3, 13, 2, 14, 1, 15]

/-- "the `i`-th `READ 3` gives the length of code-length symbol `order[i]`"; "unspecified entries default
to length 0" (R123). -/
def arrangeLengths (vals : List Nat) : List Nat :=
  (codeLengthOrder.zip vals).foldl (fun ls p => ls.set p.1 p.2) (List.replicate 19 0)

/-- `put r copies of x` (R124): past the declared bound it fails and writes nothing. -/
def putCopies (count r x : Nat) (L : List Nat) (s : State) : Reply (List Nat) :=
  if count < L.length + r then .fail .malformedHeader s
  else .done (L ++ List.replicate r x) s

/-- What one code-length symbol does to the lengths decoded so far (R124): "The extra-bit read comes
before the overrun check". -/
def applyLengthSymbol (count sym : Nat) (L : List Nat) (s : State) : Reply (List Nat) :=
  if sym ≤ 15 then .done (L ++ [sym]) s
  else if sym = 16 then
    match L.getLast? with
    | none => .fail .malformedHeader s
    | some x => (readField 2 s).andThen fun v s => putCopies count (v + 3) x L s
  else if sym = 17 then (readField 3 s).andThen fun v s => putCopies count (v + 3) 0 L s
  else if sym = 18 then (readField 7 s).andThen fun v s => putCopies count (v + 11) 0 L s
  else .fail .malformedHeader s

/-- `DecodeLengths(count)` (R124). Every round adds an entry, so `count` rounds are enough (log 18). -/
def lengthsLoop (code : HuffmanTable) (count : Nat) :
    (fuel : Nat) → (L : List Nat) → State → Reply (List Nat)
  | 0, L, s => if L.length < count then .outOfFuel s else .done L s
  | fuel + 1, L, s =>
    if L.length < count then
      (decodeSymbol code s).andThen fun sym s =>
      (applyLengthSymbol count sym L s).andThen fun L s => lengthsLoop code count fuel L s
    else .done L s

/-- `DecodeLengths(count)` from an empty list: the "previous value" of a 16 is the previous entry of the
same sequence (R124). -/
def decodeLengths (code : HuffmanTable) (count : Nat) (s : State) : Reply (List Nat) :=
  lengthsLoop code count count [] s

/-- The dynamic block handler (R122 to R126). -/
def dynamicBlock (out : List Byte) (s : State) : Reply (List Byte) :=
  (readCounts s).andThen fun c s =>
  (readFields 3 c.ncode s).andThen fun vals s =>
  (buildOrFail (arrangeLengths vals) s).andThen fun code s =>
  (decodeLengths code c.nlen s).andThen fun lenLengths s =>
  (decodeLengths code c.ndist s).andThen fun distLengths s =>
  (buildOrFail lenLengths s).andThen fun lenCode s =>
  (buildOrFail distLengths s).andThen fun distCode s =>
    decodeBody lenCode distCode out s

end Sys2Proof.Machine
end

