-- ==== Sys2Proof/Machine/Inflate.lean ====
section
/-!
DEFINITION. The inflate driver and the stored block (41_client_requests.md R101 to R103, R125).
-/

namespace Sys2Proof.Machine

/-- The header's two fields (R101). -/
structure BlockHeader where
  final : Nat
  blockType : Nat
  deriving DecidableEq, Repr

/-- `final` and `type` by `READ 1` and then `READ 2` (R101). -/
def readHeader (s : State) : Reply BlockHeader :=
  (readField 1 s).andThen fun final s =>
  (readField 2 s).andThen fun blockType s => .done { final := final, blockType := blockType } s

/-- "or one `READ 3` and split the value as `final = v & 1`, `type = v >> 1`" (R101). -/
def readHeaderWhole (s : State) : Reply BlockHeader :=
  (readField 3 s).andThen fun v s => .done { final := v &&& 1, blockType := v >>> 1 } s

/-- Raw bytes, one `READ 8` each (R125). -/
def copyRaw : (count : Nat) → (out : List Byte) → State → Reply (List Byte)
  | 0, out, s => .done out s
  | count + 1, out, s =>
    (readField 8 s).andThen fun v s => copyRaw count (out ++ [BitVec.ofNat 8 v]) s

/-- A stored block after its header (R125): `ALIGN`, `LEN`, `NLEN`, then `LEN` bytes. -/
def storedBlock (out : List Byte) (s : State) : Reply (List Byte) :=
  ((issue .align s).andThen valueOrFail).andThen fun _ s =>
  (readField 16 s).andThen fun len s =>
  (readField 16 s).andThen fun nlen s =>
    if nlen = (len ^^^ 0xFFFF) then copyRaw len out s
    else .fail .malformedHeader s

/-- The dispatch on the block type (R101, R103). -/
def runBlock (blockType : Nat) (out : List Byte) (s : State) : Reply (List Byte) :=
  if blockType = 0 then
    if s.alignPresent then storedBlock out s else .fail .unsupportedBlockType s
  else if blockType = 1 then fixedBlock out s
  else if blockType = 2 then dynamicBlock out s
  else .fail .malformedHeader s

/-- The driver loop (R102): block after block until one has `final` set; a failure ends it, with no
partial result. -/
def driverLoop : (fuel : Nat) → (out : List Byte) → State → Reply (List Byte)
  | 0, _, s => .outOfFuel s
  | fuel + 1, out, s =>
    (readHeader s).andThen fun h s =>
    (runBlock h.blockType out s).andThen fun out s =>
      if h.final = 1 then .done out s else driverLoop fuel out s

/-- A whole session, begun on a ready port (log 16): the decoded output, or the failure (R102, R129). The bound is one no stream reaches:
each block delivers at least its header (log 18). -/
def inflate (s : State) : Reply (List Byte) := driverLoop (s.bitsLeft + 1) [] s

end Sys2Proof.Machine
end

