-- ==== Sys2Proof/Machine/Instances.lean ====
section
/-!
DEFINITION. Several readers side by side, "each with its own byte source and state and nothing shared"
(60_exceptions.md R150; 20_memory.md R53): a list of states, of which one steps at a time (log 19).
-/

namespace Sys2Proof.Machine

/-- Instance `k` makes one step; the others do not change. -/
def stepAt (k : Nat) (readers : List State) : Host.Outcome (List State) Fault Refusal :=
  match readers[k]? with
  | none => .next readers
  | some s =>
    match step s with
    | .next t => .next (readers.set k t)
    | .fault f => .fault f
    | .refused r => .refused r

end Sys2Proof.Machine
end

