-- ==== Sys2Proof/Safety.lean ====
section
/-!
DEFINITION. How a model reads the outcomes (60_exceptions.md R153), and the invariant of the reader
between commands (10_state.md R20, R23, R24).
-/

namespace Sys2Proof.Machine

/-- R153's table over an outcome of `exec` or `step`: an `EndOfInput` response is a fault, a
`BadRequest` response is a refusal, every other next state is a next state (logs 1 and 2). DESIGN CHOICE:
R153 has no row for a step of a failed reader that is no command. It is read by the response the step
leaves on the port: while the failure's response is still pending, as when the client idles, the fault
or the refusal once more; once it is taken, by the step that takes it and after it, a next state, with
`failed` still 1 in it (logs 1, 2). -/
def reading (o : Host.Outcome State Fault Refusal) : Host.Outcome State Fault Refusal :=
  match o with
  | .next t =>
    match t.rsp with
    | some .endOfInput => .fault .endOfInput
    | some .badRequest => .refused .reservedWord
    | some (.ok _) => .next t
    | none => .next t
  | .fault f => .fault f
  | .refused r => .refused r

/-- A session in which nothing has failed (R22): what a claim about a run takes as its premise (60
R140). -/
def State.Healthy (s : State) : Prop := s.failed = false

/-- "stuck (hold that only the source can lift)" (R153; 20_memory.md R44): a command is in flight and a
step changes nothing. -/
def State.Stuck (s : State) : Prop := s.inFlight.isSome = true ∧ step s = .next s

/-- Whether every delay to come is finite: the source "answers every pull, eventually" (70
R168, R170). -/
def State.SourceResponsive (s : State) : Prop := Delay.never ∉ s.delays

/-- What is true of the reader between commands (10_state.md R20, R23, R24), of its source (20_memory.md
R43) and of its ports (30_encoding.md R60, R61), after any history. -/
structure State.Inv (s : State) : Prop where
  /-- The source's position is within the source (R43). -/
  srcPos_le : s.srcPos ≤ s.src.length
  /-- "at most 7 between commands" (R23). -/
  bitcnt_le : s.failed = false → s.bitcnt.toNat ≤ 7
  /-- `bitcnt = 8*P - (T + D)` (R24(a)). -/
  position : s.failed = false → s.bitcnt.toNat + (s.consumed + s.discarded) = 8 * s.srcPos
  /-- `bitbuf[j] = sbit(SRC, T + D + j)` for `j < bitcnt` (R24(b)). -/
  buffered : s.failed = false → ∀ j, j < s.bitcnt.toNat →
    s.bitbuf.getLsbD j = sbit s.src (s.consumed + s.discarded + j)
  /-- `bitbuf[k] = 0` for `k ≥ bitcnt` (R20, R24(c)). -/
  cleared : s.failed = false → ∀ k, s.bitcnt.toNat ≤ k → s.bitbuf.getLsbD k = false
  /-- No more bits are delivered or discarded than were pulled, after a failure too. -/
  delivered_le : s.consumed + s.discarded ≤ 8 * s.srcPos
  /-- "With `ALIGN_PRESENT = false`, `D` is always 0" (R24). -/
  discarded_zero : s.alignPresent = false → s.discarded = 0
  /-- A command in flight and a pending response exclude each other (R60, R61). -/
  one_transaction : s.inFlight = none ∨ s.rsp = none
  /-- Only a legal `READ` of a reader that has not failed waits for the source (R62). -/
  in_flight_read : ∀ i, s.inFlight = some i →
    s.failed = false ∧ ∃ n, i = .read n ∧ Instr.wellFormed (.read n) = true

/-- `READ n` can be answered at once: the source has no delay left for the pulls it makes (20_memory.md
R44). -/
def State.SourceReady (s : State) (n : BitVec 5) : Prop := s.sourceSilent (countOperand n) = false

/-- Whether an event offers a command. -/
def Event.isCommand : Event → Bool
  | .cmd _ => true
  | .take => false
  | .idle => false
  | .rst _ _ => false

/-- Every command of the session, counted where it stands: its response taken, its response pending, in
flight, or still to be offered (30_encoding.md R61). -/
def State.transactions (s : State) : Nat :=
  s.taken.length + s.rsp.toList.length + s.inFlight.toList.length + s.env.countP Event.isCommand

/-- Whether the script resets the unit. -/
def State.NoReset (s : State) : Prop := ∀ src ds, Event.rst src ds ∉ s.env

end Sys2Proof.Machine
end

