-- ==== Sys2Proof/Certificates/Slice0/Obligations.lean ====
section
/-!
DEFINITION. The statements about deflate_bitreader, in the order of the spec's files. Each docstring says
which rule the statement formalises. `s.streamPos` is `consumed + discarded`, the next stream bit's index
(10_state.md R27).
-/

open Sys2Proof Sys2Proof.Machine

/-! ## Reset and the state -/

/-- R31: every piece of state has the reset value the table gives it, the command port is ready, no
response is pending, and reset pulls no byte: `src_pos` is 0 and, which is the model's choice of how a
source delays its pulls (log 6), no entry of the delays is used up. -/
def Obligations.ResetValuesAreTheTables : Prop :=
  State.reset.bitbuf = 0 ∧ State.reset.bitcnt = 0 ∧ State.reset.failed = false ∧
  State.reset.consumed = 0 ∧ State.reset.discarded = 0 ∧ State.reset.srcPos = 0 ∧
  State.reset.cmdReady = true ∧ State.reset.rspValid = false ∧
  ∀ src ds s, (State.restart src ds s).srcPos = 0 ∧ (State.restart src ds s).delays = ds

/-- R160: a reset at any moment sets every piece of state to its reset value, drops the command in flight
and the pending response, pulls no byte, and leaves the command port ready. The model's choice (log 13):
`alignPresent`, the script and the free values' counter stay, and the record of responses taken starts
anew. -/
def Obligations.RestartDropsEverythingInProgress : Prop :=
  ∀ (s : State) (src : List Byte) (ds : List Delay) (rest : List Event),
    s.env = .rst src ds :: rest →
    step s = .next { State.reset with
      src := src, delays := ds, alignPresent := s.alignPresent, env := rest, freeCtr := s.freeCtr } ∧
    (State.restart src ds s).cmdReady = true

/-- The invariant holds at reset. -/
def Obligations.ResetMeetsTheInvariant : Prop := State.reset.Inv

/-- Every step keeps the invariant (R20, R23, R24, R43, R60), from every state that meets it. R23 and R24
speak of the reader between commands; that the invariant says the same of a state in which a command is
held, with the buffer and `src_pos` as they were before the command, is the model's choice (logs 6, 7). -/
def Obligations.EveryStepKeepsTheInvariant : Prop :=
  ∀ s t : State, s.Inv → step s = .next t → t.Inv

/-- R23 and R24, of every state a session can reach: whatever the source, its delays, how the hardware is
built and what the client and the board do. That it holds while a command is held too, with the buffer
and `src_pos` as they were before the command, rests on the model's choice (logs 6, 7). -/
def Obligations.BufferHoldsTheUnconsumedTail : Prop :=
  ∀ (src : List Byte) (ds : List Delay) (ap : Bool) (env : List Event) (k : Nat) (t : State),
    core.run k { State.reset with src := src, delays := ds, alignPresent := ap, env := env } = .next t →
    t.failed = false →
    t.bitcnt.toNat ≤ 7 ∧
    t.bitcnt.toNat = 8 * t.srcPos - (t.consumed + t.discarded) ∧
    t.consumed + t.discarded ≤ 8 * t.srcPos ∧
    (∀ j, j < t.bitcnt.toNat → t.bitbuf.getLsbD j = sbit t.src (t.consumed + t.discarded + j)) ∧
    (∀ k, t.bitcnt.toNat ≤ k → t.bitbuf.getLsbD k = false) ∧
    (t.alignPresent = false → t.discarded = 0)

/-- R27: the stream position only increases, in every step that is not a reset, and under the invariant
it is `8*src_pos - bitcnt`; that this is so while a command is held too is the model's choice (logs 6,
7). -/
def Obligations.StreamPositionNeverDecreases : Prop :=
  (∀ s t : State, (∀ src ds rest, s.env ≠ .rst src ds :: rest) → step s = .next t →
    s.streamPos ≤ t.streamPos) ∧
  (∀ s : State, s.Inv → s.failed = false → s.streamPos = 8 * s.srcPos - s.bitcnt.toNat)

/-- R29, R43, R51: a step other than a reset changes neither the source's bytes nor how the hardware is
built, and the source's position never goes back. -/
def Obligations.SourceIsFixedAndReadForwards : Prop :=
  ∀ s t : State, (∀ src ds rest, s.env ≠ .rst src ds :: rest) → step s = .next t →
    t.src = s.src ∧ s.srcPos ≤ t.srcPos ∧ t.alignPresent = s.alignPresent

/-! ## The byte source -/

/-- R43: a pull gives the next byte and moves on, or `End` and stays; once it has given `End`, it gives
`End` again. That it uses up one entry of the delays is the model's choice (log 6). -/
def Obligations.PullGivesTheNextByteOrEnd : Prop :=
  ∀ s : State,
    (∀ h : s.srcPos < s.src.length, ∃ t, pullByte s = .byte (s.src[s.srcPos]'h) t ∧
      t = { s with srcPos := s.srcPos + 1, delays := s.delays.tail }) ∧
    (s.src.length ≤ s.srcPos → ∃ t u, pullByte s = .ended t ∧
      t = { s with delays := s.delays.tail } ∧ pullByte t = .ended u ∧ u.srcPos = s.srcPos)

/-- R44: while the source has not answered, the command is held and nothing else in the unit changes; and
when a pull of the command in flight is never answered, the unit never responds and never fails: without
a reset, no number of steps changes anything but what the client still offers. The model's choice: the
delays and how they get shorter, the command held as a whole, so that a byte already answered does not
show in `src_pos` or the buffer (log 6), and the field that holds the command (log 7). -/
def Obligations.SilentSourceHoldsTheCommand : Prop :=
  (∀ (n : BitVec 5) (s : State), Instr.wellFormed (.read n) = true → s.failed = false →
    s.sourceSilent (countOperand n) = true →
    exec (.read n) s = .next { s with delays := tickDelays s.delays, inFlight := some (.read n) }) ∧
  (∀ (n : BitVec 5) (k : Nat) (s : State), Instr.wellFormed (.read n) = true → s.failed = false →
    s.inFlight = some (.read n) → s.rsp = none → s.NoReset →
    k < s.pullsMade (countOperand n) → s.delays.take k = List.replicate k (.after 0) →
    s.delays[k]? = some .never →
    ∀ j, ∃ rest, core.run j s = .next { s with env := rest })

/-- R46: a `READ n` makes between 0 and 2 pulls, none when `bitcnt ≥ n` and at most
`ceil((n - bitcnt) / 8)` otherwise, on every state; each pull is one byte. That each pull, the one
answered `End` included, uses up one entry of the delays is the model's choice (log 6). -/
def Obligations.ReadMakesAtMostTwoPulls : Prop :=
  ∀ (n : BitVec 5) (s t : State), Instr.wellFormed (.read n) = true → s.failed = false →
    s.SourceReady n → exec (.read n) s = .next t →
    s.pullsMade (countOperand n) ≤ (countOperand n - s.bitcnt.toNat + 7) / 8 ∧
    (countOperand n - s.bitcnt.toNat + 7) / 8 ≤ 2 ∧
    s.srcPos ≤ t.srcPos ∧ t.srcPos ≤ s.srcPos + s.pullsMade (countOperand n) ∧
    t.delays = s.delays.drop (s.pullsMade (countOperand n))

/-- R49: successive `READ`s return successive fields of the stream, each starting where the one before
ended; the source may delay its answers. That the first may begin on a port that is not ready is the
model's choice (log 16). -/
def Obligations.SequentialReadsReturnSuccessiveFields : Prop :=
  ∀ (widths : List Nat) (s : State), s.Inv → s.failed = false → s.SourceResponsive →
    (∀ n ∈ widths, n ≤ 16) → s.streamPos + widths.sum ≤ 8 * s.src.length →
    ∃ t, readWidths widths s = .done (streamFields s.src s.streamPos widths) t ∧
      t.streamPos = s.streamPos + widths.sum ∧ t.Inv ∧ t.failed = false

/-- R53, in the model's own form of several readers, a list of states of which one, named by its index,
steps at a time (log 19): a step of one leaves every other as it is, and the steps of two commute. It
is a check of `stepAt`, and holds whatever a step does. -/
def Obligations.InstancesShareNothing : Prop :=
  ∀ (readers a b c : List State) (k l : Nat), k ≠ l →
    stepAt k readers = .next a → stepAt l a = .next b → stepAt l readers = .next c →
    a[l]? = readers[l]? ∧ stepAt k c = .next b

/-! ## The ports and the command word -/

/-- When the port is ready and the word offered is a command, a step is that command's `exec`, with the
word taken off the script; the command in flight goes on by the same `exec`; and the word that
`withFetchWord` places is run by the very next step. The model's choice: the command in flight, held in a
field and run again by `exec` at each step until its pulls are answered (logs 6, 7), where R170 has one
atomic step; and the script of words and `withFetchWord`, which drops the command in flight and the
pending response to make the port ready (log 8). -/
def Obligations.StepRunsTheOfferedCommand : Prop :=
  (∀ (s : State) (w : Byte) (rest : List Event) (i : Instr), s.env = .cmd w :: rest →
    s.cmdReady = true → decode s.alignPresent w = .command i →
    step s = exec i { s with env := rest }) ∧
  (∀ (s : State) (i : Instr), s.env = [] → s.inFlight = some i → step s = exec i s) ∧
  (∀ (s : State) (w : Nat) (i : Instr), w < 256 →
    decode s.alignPresent (BitVec.ofNat 8 w) = .command i →
    step (s.withFetchWord 8 w) = exec i { s with inFlight := none, rsp := none })

/-- R63: the status code of each response and the value it carries; a failure carries none, and the code
`11` is never driven. The last clause is about the 0 that the hardware puts on the bus with a failure,
which no client may read; that the model shows it as `rspData` is log 15. -/
def Obligations.ResponsesCarryTheirStatus : Prop :=
  (∀ v : Half, (Response.ok v).status = 0b00 ∧ (Response.ok v).value = some v) ∧
  Response.endOfInput.status = 0b01 ∧ Response.endOfInput.value = none ∧
  Response.badRequest.status = 0b10 ∧ Response.badRequest.value = none ∧
  (∀ r : Response, r.status ≠ 0b11) ∧
  (∀ s : State, s.rsp = some .endOfInput ∨ s.rsp = some .badRequest → s.rspData = some 0)

/-- R61: every command is answered once, and nothing is answered without a command: in a step that is not a
reset, a command only moves on, from offered to in flight, to a pending response, to the responses
taken; and a word is not accepted while a command is in flight or a response is pending. The four
places are the model's choice: the command in flight (log 7), the script (log 8), the record of
responses taken (log 9). -/
def Obligations.OneResponseForEveryCommand : Prop :=
  (∀ s t : State, s.Inv → (∀ src ds rest, s.env ≠ .rst src ds :: rest) → step s = .next t →
    t.transactions = s.transactions ∧
    (t.taken = s.taken ∨ ∃ r, s.rsp = some r ∧ t.rsp = none ∧ t.taken = s.taken ++ [r])) ∧
  (∀ (s t : State) (w : Byte) (rest : List Event), s.env = .cmd w :: rest → s.cmdReady = false →
    step s = .next t → t.env = s.env)

/-- R62: in a step that is not a reset, the source's position moves only in a `READ` that lacks bits: the
command in flight (log 7), or one the script offers (log 8). -/
def Obligations.PullsOnlyForAReadThatLacksBits : Prop :=
  ∀ s t : State, (∀ src ds rest, s.env ≠ .rst src ds :: rest) → step s = .next t → t.srcPos ≠ s.srcPos →
    s.failed = false ∧ ∃ n : BitVec 5, s.bitcnt.toNat < n.toNat ∧ n.toNat ≤ 16 ∧
      (s.inFlight = some (.read n) ∨
        ∃ w rest, s.env = .cmd w :: rest ∧ decode s.alignPresent w = .command (.read n))

/-- The client takes the pending response (R60, R61): it leaves the port, and nothing else of the unit
changes. That taking is an event of the script (log 8) and that the response joins a record of those
taken (log 9) is the model's choice. -/
def Obligations.TakeHandsOverTheResponse : Prop :=
  ∀ (s : State) (r : Response) (rest : List Event), s.env = .take :: rest → s.rsp = some r →
    step s = .next { s with env := rest, rsp := none, taken := s.taken ++ [r] }

/-- R66: every one of the 256 words is `READ n`, `ALIGN` where it is present, or reserved, by the map. -/
def Obligations.EveryWordIsReadAlignOrReserved : Prop :=
  ∀ (ap : Bool) (w : Byte), decode ap w =
    if w.toNat ≤ 0x10 then .command (.read (BitVec.ofNat 5 w.toNat))
    else if w.toNat ≤ 0x1F then .reserved .readCountAbove16
    else if w.toNat = 0x20 then (if ap then .command .align else .reserved .alignAbsent)
    else if w.toNat ≤ 0x3F then .reserved .alignCountNotZero
    else .reserved .unknownOp

/-- Decoding an encoded well-formed command gives it back, and every word that decodes to a command is
that command's encoding, a well-formed one, and `ALIGN` only where it is present (R64, R65, R66). -/
def Obligations.DecodeAndEncodeAgree : Prop :=
  (∀ i : Instr, i.wellFormed = true → decode true (encode i) = .command i) ∧
  (∀ (ap : Bool) (w : Byte) (i : Instr), decode ap w = .command i →
    encode i = w ∧ i.wellFormed = true ∧ (i = .align → ap = true))

/-- R70's examples, and the two words of spec/opcode_table.json. -/
def Obligations.SpecWordsDecode : Prop :=
  decodeTableWord 8 0x00 = some (.read 0) ∧ decodeTableWord 8 0x01 = some (.read 1) ∧
  decodeTableWord 8 0x05 = some (.read 5) ∧ decodeTableWord 8 0x07 = some (.read 7) ∧
  decodeTableWord 8 0x0D = some (.read 13) ∧ decodeTableWord 8 0x10 = some (.read 16) ∧
  decodeTableWord 8 0x20 = some .align ∧ decodeTableWord 8 0x11 = none

/-- R69: each pseudo-instruction is one command with the word the table gives. -/
def Obligations.PseudoInstructionsAreOneWord : Prop :=
  Pseudo.rdbit.expand = .read 1 ∧ encode Pseudo.rdbit.expand = 0x01 ∧
  Pseudo.rdhdr.expand = .read 3 ∧ encode Pseudo.rdhdr.expand = 0x03 ∧
  Pseudo.rdbyte.expand = .read 8 ∧ encode Pseudo.rdbyte.expand = 0x08 ∧
  Pseudo.rdword.expand = .read 16 ∧ encode Pseudo.rdword.expand = 0x10 ∧
  Pseudo.nopr.expand = .read 0 ∧ encode Pseudo.nopr.expand = 0x00

/-! ## READ and ALIGN -/

/-- R81, R86, R88, R24: `READ n` completes whenever the bits are there and the source answers. The value is
the stream's field at the stream position and `consumed` grows by `n` (R86), the source has delivered
just the bytes that hold the bits consumed (R88), the buffer holds what is left of the last of them
(R24), the pulls' entries of the delays are used up (the model's choice, log 6), the response is on the
port, and nothing else changes. -/
def Obligations.ReadReturnsTheStreamField : Prop :=
  ∀ (n : BitVec 5) (s : State), s.Inv → s.failed = false → n.toNat ≤ 16 →
    s.streamPos + n.toNat ≤ 8 * s.src.length → s.SourceReady n →
    exec (.read n) s = .next { s with
      bitbuf := BitVec.ofNat 32 (streamField s.src (s.streamPos + n.toNat)
        (8 * ((s.streamPos + n.toNat + 7) / 8) - (s.streamPos + n.toNat)))
      bitcnt := BitVec.ofNat 5 (8 * ((s.streamPos + n.toNat + 7) / 8) - (s.streamPos + n.toNat))
      consumed := s.consumed + n.toNat
      srcPos := (s.streamPos + n.toNat + 7) / 8
      delays := s.delays.drop (s.pullsMade n.toNat)
      inFlight := none
      rsp := some (.ok (BitVec.ofNat 16 (streamField s.src s.streamPos n.toNat))) }

/-- R82: `READ 0` returns 0, changes no state, pulls no byte and cannot fail, whatever the source does. -/
def Obligations.ReadZeroAlwaysAnswersZero : Prop :=
  ∀ s : State, s.failed = false →
    exec (.read 0) s = .next { s with rsp := some (.ok 0), inFlight := none }

/-- R83(b), on every state: with `n ≤ bitcnt` there is no pull, even from a silent source, and the value
comes from the buffered bits. -/
def Obligations.ReadWithinTheBufferPullsNothing : Prop :=
  ∀ (n : BitVec 5) (s : State), s.failed = false → n.toNat ≤ 16 → n.toNat ≤ s.bitcnt.toNat →
    exec (.read n) s = .next { s with
      bitbuf := s.bitbuf >>> n.toNat
      bitcnt := s.bitcnt - n
      consumed := s.consumed + n.toNat
      inFlight := none
      rsp := some (.ok ((s.bitbuf &&& ((1 <<< n.toNat) - 1)).setWidth 16)) }

/-- R83(d), on every state: the value returned is at most `2^n - 1`. -/
def Obligations.ReadValueFitsItsWidth : Prop :=
  ∀ (n : BitVec 5) (s t : State) (v : Half), Instr.wellFormed (.read n) = true → s.failed = false →
    s.SourceReady n → exec (.read n) s = .next t → t.rsp = some (.ok v) → v.toNat ≤ 2 ^ n.toNat - 1

/-- R85: `ALIGN`, on every state of a reader that has it: the buffered bits are discarded; a reader that
has failed answers `EndOfInput` and changes nothing else. -/
def Obligations.AlignDiscardsTheBuffer : Prop :=
  ∀ s : State, s.alignPresent = true →
    (s.failed = false → exec .align s = .next { s with
      discarded := s.discarded + s.bitcnt.toNat, bitbuf := 0, bitcnt := 0
      rsp := some (.ok 0), inFlight := none }) ∧
    (s.failed = true → exec .align s = .next { s with rsp := some .endOfInput, inFlight := none })

/-- R84: after `ALIGN` the next `READ n` starts on a byte boundary, at the byte the source delivers next;
in particular `READ 16` then returns `SRC[p] | SRC[p+1] << 8`. That this holds on a port that is not
ready too is the model's choice (log 16). -/
def Obligations.ReadAfterAlignStartsOnAByte : Prop :=
  ∀ (n : BitVec 5) (s : State), s.Inv → s.alignPresent = true → s.failed = false → n.toNat ≤ 16 →
    8 * s.srcPos + n.toNat ≤ 8 * s.src.length → s.SourceResponsive →
    ∃ t u, exec .align s = .next t ∧ issue (.read n) t =
        .done (.ok (BitVec.ofNat 16 (streamField s.src (8 * s.srcPos) n.toNat))) u ∧
      (∀ b0 b1, n = 16 → s.src[s.srcPos]? = some b0 → s.src[s.srcPos + 1]? = some b1 →
        streamField s.src (8 * s.srcPos) 16 = b0.toNat ||| b1.toNat <<< 8)

/-- R87: two reads give the bits of one, `x | (y << a)`, and leave the state the one leaves; and the two
fail just when the one does. The model's choice: the record of responses taken, in which the two differ
(log 9), and that the first may begin on a port that is not ready (log 16). -/
def Obligations.TwoReadsConcatenate : Prop :=
  ∀ (a b : Nat) (s : State), s.Inv → s.failed = false → a + b ≤ 16 → s.SourceResponsive →
    (∀ x y t u, readField a s = .done x t → readField b t = .done y u →
      ∃ w, readField (a + b) s = .done (x ||| (y <<< a)) w ∧ { w with taken := u.taken } = u) ∧
    ((∃ t, readField (a + b) s = .fail .endOfInput t) ↔
      ((∃ t, readField a s = .fail .endOfInput t) ∨
        ∃ x t u, readField a s = .done x t ∧ readField b t = .fail .endOfInput u))

/-- R88: after every successful command, `src_pos = ceil((consumed + discarded) / 8)`. -/
def Obligations.PullsAreLazy : Prop :=
  ∀ (i : Instr) (s t : State) (v : Half), s.Inv → s.failed = false →
    exec i s = .next t → t.inFlight = none → t.rsp = some (.ok v) →
    t.srcPos = (t.consumed + t.discarded + 7) / 8

/-- R89: on a reader that has not failed and whose source answers, `READ n` fails with `EndOfInput` if and
only if `consumed + discarded + n > 8 * length(SRC)`. When it fails, `failed` is 1, every byte of SRC has
been pulled, no value is delivered, nothing else changes, and `bitbuf` and `bitcnt` hold values the
statement leaves open; no later command reads them: each answers the same, whatever they hold. The
model's choice: a next state that carries the failure and not a stop (log 1), the counter of the free
values going on by one (log 3), and the pulls' entries of the delays used up (log 6). -/
def Obligations.ReadFailsExactlyPastTheEnd : Prop :=
  ∀ (n : BitVec 5) (s : State), s.Inv → s.failed = false → n.toNat ≤ 16 → s.SourceReady n →
    ((∃ t, exec (.read n) s = .next t ∧ t.rsp = some .endOfInput) ↔
      8 * s.src.length < s.streamPos + n.toNat) ∧
    (8 * s.src.length < s.streamPos + n.toNat →
      ∃ (b : BitVec 32) (c : BitVec 5), exec (.read n) s = .next { s with
        bitbuf := b, bitcnt := c, failed := true, srcPos := s.src.length
        delays := s.delays.drop (s.pullsMade n.toNat), freeCtr := s.freeCtr + 1
        inFlight := none, rsp := some .endOfInput } ∧
      Response.endOfInput.value = none ∧
      ∀ (i : Instr) (t u : State) (b' : BitVec 32) (c' : BitVec 5), t.failed = true →
        exec i t = .next u → exec i { t with bitbuf := b', bitcnt := c' } =
          .next { u with bitbuf := b', bitcnt := c' })

/-- R90: in a refill under the invariant, `bitcnt` reaches at most 23 and at least `n`, and `bitbuf` stays
below `2^bitcnt`: no addition, shift or subtraction of `READ` overflows. -/
def Obligations.RefillStaysWithinItsWidths : Prop :=
  ∀ (n : Nat) (s t : State), s.Inv → s.failed = false → n ≤ 16 → refill n maxPulls s = .filled t →
    n ≤ t.bitcnt.toNat ∧ t.bitcnt.toNat ≤ 23 ∧ t.bitbuf.toNat < 2 ^ t.bitcnt.toNat ∧
    t.bitcnt.toNat = s.bitcnt.toNat + 8 * (t.srcPos - s.srcPos)

/-- The frame of both commands, on every state and every outcome: neither changes the source's bytes, how
the hardware is built, the client's script or the responses taken; `READ` never changes `discarded`, and
changes `consumed` only when it delivers a value; `ALIGN` never changes the source's position, its
delays, `consumed` or the free values' counter (R80, R84: "State written"). A hold is an outcome of
`READ` too, by the model's choice (logs 6, 7). -/
def Obligations.CommandsLeaveTheRestAlone : Prop :=
  (∀ (i : Instr) (s t : State), exec i s = .next t →
    t.src = s.src ∧ t.alignPresent = s.alignPresent ∧ t.env = s.env ∧ t.taken = s.taken) ∧
  (∀ (n : BitVec 5) (s t : State), exec (.read n) s = .next t →
    t.discarded = s.discarded ∧
    (t.consumed = s.consumed ∨ t.consumed = s.consumed + n.toNat ∧ ∃ v, t.rsp = some (.ok v))) ∧
  (∀ s t : State, exec .align s = .next t →
    t.srcPos = s.srcPos ∧ t.delays = s.delays ∧ t.consumed = s.consumed ∧ t.freeCtr = s.freeCtr)

/-! ## Failures -/

/-- R141: a reserved word, offered when the port is ready, answers `BadRequest` whatever the state holds:
`failed` becomes 1, no byte is pulled, nothing else changes; and a model reads it as a refusal. The
model's choice: a next state, which `reading` makes the refusal (log 2), and the same answer of `exec` to
the terms that no word decodes to, `READ` with a count above 16 and `ALIGN` where it is absent (log
12). -/
def Obligations.ReservedWordAnswersBadRequest : Prop :=
  (∀ (s : State) (w : Byte) (rest : List Event) (why : Reserved), s.env = .cmd w :: rest →
    s.cmdReady = true → decode s.alignPresent w = .reserved why →
    step s = .next { s with env := rest, failed := true, rsp := some .badRequest, inFlight := none } ∧
    reading (step s) = .refused .reservedWord) ∧
  (∀ (i : Instr) (s : State), i.wellFormed = false ∨ (i = .align ∧ s.alignPresent = false) →
    exec i s = .next { s with failed := true, rsp := some .badRequest, inFlight := none })

/-- R143: a failed reader answers every legal command with `EndOfInput` and changes nothing else, answers
a reserved word with `BadRequest`, and no step but a reset clears `failed`. -/
def Obligations.FailureIsSticky : Prop :=
  (∀ (i : Instr) (s : State), s.failed = true → i.wellFormed = true →
    (i = .align → s.alignPresent = true) →
    exec i s = .next { s with rsp := some .endOfInput, inFlight := none }) ∧
  (∀ (w : Byte) (s : State) (why : Reserved), s.failed = true →
    decode s.alignPresent w = .reserved why →
    accept w s = .next { s with rsp := some .badRequest, inFlight := none }) ∧
  (∀ s t : State, s.failed = true → (∀ src ds rest, s.env ≠ .rst src ds :: rest) →
    step s = .next t → t.failed = true)

/-- R144: the checks in their order, for a word accepted while the source answers: reserved, then failed,
then the end of the source, then OK. -/
def Obligations.ChecksComeInTheirOrder : Prop :=
  ∀ (w : Byte) (s t : State), s.Inv → accept w s = .next t → t.inFlight = none →
    (∀ why, decode s.alignPresent w = .reserved why → t.rsp = some .badRequest) ∧
    (∀ i, decode s.alignPresent w = .command i → s.failed = true → t.rsp = some .endOfInput) ∧
    (∀ n : BitVec 5, decode s.alignPresent w = .command (.read n) → s.failed = false →
      s.SourceReady n →
      if 8 * s.src.length < s.streamPos + n.toNat then t.rsp = some .endOfInput
      else ∃ v, t.rsp = some (.ok v)) ∧
    (decode s.alignPresent w = .command .align → s.failed = false → t.rsp = some (.ok 0))

/-- R89(c), D8: what the buffer holds after a failure is never observed: two failed readers that differ
in nothing else answer alike for ever, whatever is done to them, a reset included. -/
def Obligations.BufferAfterFailureIsNeverObserved : Prop :=
  ∀ (s : State) (b : BitVec 32) (c : BitVec 5) (k : Nat), s.failed = true →
    ∃ t u, core.run k s = .next t ∧ core.run k { s with bitbuf := b, bitcnt := c } = .next u ∧
      u.rsp = t.rsp ∧ u.taken = t.taken ∧ u.srcPos = t.srcPos ∧ u.failed = t.failed ∧
      u.inFlight = t.inFlight ∧ u.env = t.env

/-- R153: the five outcomes of a command as a model reads them: a legal `READ` with enough bits is a next
state with `OK`; one whose source ends is a fault; a reserved word is a refusal; a command whose source
never answers a pull, be it the first or the second, is stuck; a command after a fault stays faulted.
The model's choice: that the reading is a function of a next state (logs 1, 2), and that a hold is a
step with the command in a field, after the delays before it are over (logs 6, 7). -/
def Obligations.OutcomesReadAsTheTableSays : Prop :=
  (∀ (n : BitVec 5) (s : State), s.Inv → s.failed = false → n.toNat ≤ 16 → s.SourceReady n →
    if 8 * s.src.length < s.streamPos + n.toNat then
      reading (exec (.read n) s) = .fault .endOfInput
    else ∃ t v, reading (exec (.read n) s) = .next t ∧ t.rsp = some (.ok v)) ∧
  (∀ s : State, s.failed = false → s.alignPresent = true →
    ∃ t, reading (exec .align s) = .next t ∧ t.rsp = some (.ok 0)) ∧
  (∀ (w : Byte) (s : State) (why : Reserved), decode s.alignPresent w = .reserved why →
    reading (accept w s) = .refused .reservedWord) ∧
  (∀ (n : BitVec 5) (k : Nat) (s : State), n.toNat ≤ 16 → s.failed = false →
    s.inFlight = some (.read n) → s.env = [] → k < s.pullsMade n.toNat →
    s.delays.take k = List.replicate k (.after 0) → s.delays[k]? = some .never → s.Stuck) ∧
  (∀ (w : Byte) (i : Instr) (s : State), s.failed = true → decode s.alignPresent w = .command i →
    reading (accept w s) = .fault .endOfInput)

/-- R152: between commands the unit is idle and holds its state. -/
def Obligations.IdleUnitHoldsItsState : Prop :=
  ∀ s : State, s.env = [] → s.inFlight = none → step s = .next s

/-- The model's choice (logs 1 and 2): every command and every step answers a next state, from every state,
be it a response, a failure or a hold (logs 6, 7); the model never stops. With R170's step of one
command. -/
def Obligations.EveryStepAnswersANextState : Prop :=
  (∀ (i : Instr) (s : State), ∃ t, exec i s = .next t) ∧ (∀ s : State, ∃ t, step s = .next t)

/-- R170: if the source answers every pull, every accepted command is answered after finitely many cycles.
That the count is of the model's steps, and the bound the delays of the two pulls a command can make,
and one, is the model's choice (log 6), not the rule's; so is the field that holds the command (log
7). -/
def Obligations.ResponsiveSourceAnswersEveryCommand : Prop :=
  ∀ (i : Instr) (s : State), s.Inv → s.inFlight = some i → s.SourceResponsive → s.NoReset →
    ∃ k t r, k ≤ s.patience ∧ core.run k s = .next t ∧ t.inFlight = none ∧ t.rsp = some r

/-! ## The clients

A client that keeps R61 and R172 begins on a ready port. That its operations are defined, and do the same,
on a port that is not ready is the model's choice, in every statement below (log 16). -/

/-- R101: the header read as `READ 1` then `READ 2` and as one `READ 3` is the same header, and leaves the
reader in the same state. -/
def Obligations.HeaderMayBeReadWhole : Prop :=
  ∀ s : State, s.Inv → s.failed = false → s.SourceResponsive → s.streamPos + 3 ≤ 8 * s.src.length →
    ∃ h t u, readHeader s = .done h t ∧ readHeaderWhole s = .done h u ∧
      { u with taken := t.taken } = t ∧ h.final ≤ 1 ∧ h.blockType ≤ 3

/-- R101, R103: a block of type 3 fails with `MalformedHeader`, one of type 0 with `UnsupportedBlockType`
where `ALIGN` is absent, and neither issues a further command. -/
def Obligations.InvalidBlockTypesFailAtOnce : Prop :=
  ∀ (out : List Byte) (s : State),
    runBlock 3 out s = .fail .malformedHeader s ∧
    (s.alignPresent = false → runBlock 0 out s = .fail .unsupportedBlockType s)

/-- R106: construction fails just when some length is over-subscribed, that is, when for some `k` the
codes of lengths 1 to `k` would take up more than all of the `2^k` words of `k` bits. -/
def Obligations.TableFailsExactlyWhenOversubscribed : Prop :=
  ∀ lengths : List Nat, buildTable lengths = none ↔
    ∃ k, k ≤ 15 ∧ 2 ^ k <
      ((List.range k).map fun j => lengths.count (j + 1) * 2 ^ (k - (j + 1))).sum

/-- R107: the table holds the count of each length (R105), and lists the symbols by ascending code length,
and by ascending symbol index within a length. -/
def Obligations.TableListsSymbolsCanonically : Prop :=
  ∀ (lengths : List Nat) (t : HuffmanTable), (∀ l ∈ lengths, l ≤ 15) → buildTable lengths = some t →
    (∀ l, 1 ≤ l → l ≤ 15 → t.counts[l]? = some (lengths.count l)) ∧
    t.symbols = (List.range 15).flatMap fun l =>
      (List.range lengths.length).filter fun sym => lengths.getD sym 0 = l + 1

/-- R108, R109, R110: from a stream whose next bits are a symbol's canonical code, most significant bit
first, the walk returns that symbol and costs exactly as many bits as the code is long. -/
def Obligations.WalkDecodesEveryCanonicalCode : Prop :=
  ∀ (lengths : List Nat) (t : HuffmanTable) (sym len : Nat) (s : State),
    (∀ l ∈ lengths, l ≤ 15) → buildTable lengths = some t → lengths[sym]? = some len → 1 ≤ len →
    s.Inv → s.failed = false → s.SourceResponsive → s.streamPos + len ≤ 8 * s.src.length →
    (∀ j, j < len → sbit s.src (s.streamPos + j) =
      (canonicalCode lengths sym).testBit (len - 1 - j)) →
    ∃ u, decodeSymbol t s = .done sym u ∧ u.streamPos = s.streamPos + len ∧ u.Inv ∧ u.failed = false

/-- R110, R112: a walk that nothing matches. With a degenerate table, or with any table when no symbol's
code stands at the start of the next 15 bits, it costs 15 reads and fails with `InvalidSymbol`, the reader
not failed; so with the fixed distance table when the next four bits are 1, as in the patterns `11110`
and `11111`. When the input ends first, before 15 bits and without a code in what is left, it fails with
`EndOfInput`. -/
def Obligations.DegenerateTableNeverMatches : Prop :=
  (∀ (lengths : List Nat) (s : State), (∀ l ∈ lengths, l = 0) → s.Inv → s.failed = false →
    s.SourceResponsive → s.streamPos + 15 ≤ 8 * s.src.length →
    ∃ t u, buildTable lengths = some t ∧ decodeSymbol t s = .fail .invalidSymbol u ∧
      u.consumed = s.consumed + 15 ∧ u.failed = false) ∧
  (∀ (lengths : List Nat) (t : HuffmanTable) (s : State), (∀ l ∈ lengths, l ≤ 15) →
    buildTable lengths = some t → s.Inv → s.failed = false → s.SourceResponsive →
    (∀ sym len, lengths[sym]? = some len → 1 ≤ len → s.streamPos + len ≤ 8 * s.src.length →
      ∃ j, j < len ∧ sbit s.src (s.streamPos + j) ≠
        (canonicalCode lengths sym).testBit (len - 1 - j)) →
    (s.streamPos + 15 ≤ 8 * s.src.length → ∃ u, decodeSymbol t s = .fail .invalidSymbol u ∧
      u.consumed = s.consumed + 15 ∧ u.failed = false) ∧
    (8 * s.src.length < s.streamPos + 15 → ∃ u, decodeSymbol t s = .fail .endOfInput u ∧
      u.failed = true)) ∧
  (∀ (t : HuffmanTable) (s : State), buildTable fixedDistanceLengths = some t → s.Inv →
    s.failed = false → s.SourceResponsive → s.streamPos + 15 ≤ 8 * s.src.length →
    (∀ j, j < 4 → sbit s.src (s.streamPos + j) = true) →
    ∃ u, decodeSymbol t s = .fail .invalidSymbol u ∧ u.consumed = s.consumed + 15 ∧
      u.failed = false)

/-- R112, R113: the fixed tables are built, and they give the codes the rules list. -/
def Obligations.FixedCodesAreTheListed : Prop :=
  (buildTable fixedLengths).isSome = true ∧ (buildTable fixedDistanceLengths).isSome = true ∧
  ∀ sym,
    (256 ≤ sym → sym ≤ 279 → fixedLengths[sym]? = some 7 ∧
      canonicalCode fixedLengths sym = sym - 256) ∧
    (sym ≤ 143 → fixedLengths[sym]? = some 8 ∧ canonicalCode fixedLengths sym = 0x30 + sym) ∧
    (280 ≤ sym → sym ≤ 287 → fixedLengths[sym]? = some 8 ∧
      canonicalCode fixedLengths sym = 0xC0 + (sym - 280)) ∧
    (144 ≤ sym → sym ≤ 255 → fixedLengths[sym]? = some 9 ∧
      canonicalCode fixedLengths sym = 0x190 + (sym - 144)) ∧
    (sym ≤ 29 → fixedDistanceLengths[sym]? = some 5 ∧
      canonicalCode fixedDistanceLengths sym = sym)

/-- R101, R102, R104, R111, R113, R114: a stream whose next bits are the header of a final fixed block (1,
then the type 1 in two bits), the fixed codes of any literals, and the code of 256, decodes to those
literals, and the reader stops right after the last of those bits. -/
def Obligations.FixedBlockOfLiteralsInflates : Prop :=
  ∀ (lits : List Byte) (s : State), s.Inv → s.failed = false → s.SourceResponsive →
    let bits := [true, true, false] ++ (lits.flatMap fun b => codeBits fixedLengths b.toNat) ++
      codeBits fixedLengths 256
    s.streamPos + bits.length ≤ 8 * s.src.length →
    (∀ j b, bits[j]? = some b → sbit s.src (s.streamPos + j) = b) →
    ∃ t, inflate s = .done lits t ∧ t.streamPos = s.streamPos + bits.length ∧ t.failed = false ∧
      t.srcPos = (s.streamPos + bits.length + 7) / 8

/-- R114, R115, R119: what the block body does with each symbol it has decoded: a literal joins the output,
256 ends the block, 257 to 285 make a back-reference at `idx = sym - 257`, after which the loop goes on,
and 286 and above fail with `MalformedBlock`; and a distance beyond the output fails with
`InvalidDistance`, after both extra-bit reads. -/
def Obligations.BlockBodyFollowsItsSymbols : Prop :=
  (∀ (lenCode distCode : HuffmanTable) (fuel sym : Nat) (out : List Byte) (s t : State),
    decodeSymbol lenCode s = .done sym t →
    (sym < 256 → blockBody lenCode distCode (fuel + 1) out s =
      blockBody lenCode distCode fuel (out ++ [BitVec.ofNat 8 sym]) t) ∧
    (sym = 256 → blockBody lenCode distCode (fuel + 1) out s = .done out t) ∧
    (257 ≤ sym → sym ≤ 285 → blockBody lenCode distCode (fuel + 1) out s =
      (backReference distCode (sym - 257) out t).andThen fun out' u =>
        blockBody lenCode distCode fuel out' u) ∧
    (286 ≤ sym → blockBody lenCode distCode (fuel + 1) out s = .fail .malformedBlock t)) ∧
  (∀ (distCode : HuffmanTable) (idx len didx dist : Nat) (out : List Byte) (s t u v : State),
    readExtended lengthTable idx s = .done len t → decodeSymbol distCode t = .done didx u →
    readExtended distanceTable didx u = .done dist v → out.length < dist →
    backReference distCode idx out s = .fail .invalidDistance v)

/-- R116, R117: each entry of the two tables, base and extra-bit count, by the law the rules' tables follow:
past the first entries, four lengths or two distances share an extra-bit count, and each base is the one
before it plus the values its extra bits can take; the last length is 258. The entries between the ends
are the spec's own, from RFC 1951 (log 20). -/
def Obligations.TablesHoldTheListedEntries : Prop :=
  lengthTable.length = 29 ∧ distanceTable.length = 30 ∧
  (∀ idx, idx ≤ 7 → lengthTable[idx]? = some (3 + idx, 0)) ∧
  (∀ idx, 8 ≤ idx → idx ≤ 27 → lengthTable[idx]? =
    some (3 + (4 + idx % 4) * 2 ^ (idx / 4 - 1), idx / 4 - 1)) ∧
  lengthTable[28]? = some (258, 0) ∧
  (∀ idx, idx ≤ 3 → distanceTable[idx]? = some (1 + idx, 0)) ∧
  (∀ idx, 4 ≤ idx → idx ≤ 29 → distanceTable[idx]? =
    some (1 + (2 + idx % 2) * 2 ^ (idx / 2 - 1), idx / 2 - 1))

/-- R114, R116, R117, R119, R121: a back-reference that succeeds has read, in this order, the extra bits of
its length symbol, a distance symbol, and that symbol's extra bits; its length and its distance are the
tables' bases plus the values of those bits; the length is 3 to 258, the distance 1 to 32768 and within
the output so far; and it copies that many bytes from there. And whenever the three are read and the
distance is within the output so far, it succeeds so. -/
def Obligations.BackReferenceStaysInTheOutput : Prop :=
  (∀ (distCode : HuffmanTable) (idx : Nat) (out out' : List Byte) (s t : State),
    backReference distCode idx out s = .done out' t →
    ∃ (base extra v didx dbase dextra w : Nat) (s1 s2 : State),
      lengthTable[idx]? = some (base, extra) ∧ readField extra s = .done v s1 ∧
      decodeSymbol distCode s1 = .done didx s2 ∧
      distanceTable[didx]? = some (dbase, dextra) ∧ readField dextra s2 = .done w t ∧
      3 ≤ base + v ∧ base + v ≤ 258 ∧ 1 ≤ dbase + w ∧ dbase + w ≤ 32768 ∧
      dbase + w ≤ out.length ∧ out' = copyBack (dbase + w) (base + v) out) ∧
  (∀ (distCode : HuffmanTable) (idx len didx dist : Nat) (out : List Byte) (s t u v : State),
    readExtended lengthTable idx s = .done len t → decodeSymbol distCode t = .done didx u →
    readExtended distanceTable didx u = .done dist v → dist ≤ out.length →
    backReference distCode idx out s = .done (copyBack dist len out) v)

/-- R121: the copy appends `len` bytes and changes none, each equal to the byte `dist` before it, so a
byte just appended is a source for those after it. -/
def Obligations.CopyRepeatsAtItsDistance : Prop :=
  ∀ (dist len : Nat) (out : List Byte), 1 ≤ dist → dist ≤ out.length →
    (copyBack dist len out).length = out.length + len ∧
    (copyBack dist len out).take out.length = out ∧
    ∀ i, i < len → (copyBack dist len out)[out.length + i]? =
      (copyBack dist len out)[out.length + i - dist]?

/-- R122: the three counts are the next 5, 5 and 4 bits, and the header fails with `MalformedHeader` just
when `nlen > 286` or `ndist > 30`, after all three reads. -/
def Obligations.DynamicCountsAreReadThenChecked : Prop :=
  ∀ s : State, s.Inv → s.failed = false → s.SourceResponsive →
    s.streamPos + 14 ≤ 8 * s.src.length →
    ∃ t, t.streamPos = s.streamPos + 14 ∧ readCounts s =
      if 286 < streamField s.src s.streamPos 5 + 257 ∨
          30 < streamField s.src (s.streamPos + 5) 5 + 1 then .fail .malformedHeader t
      else .done
        { nlen := streamField s.src s.streamPos 5 + 257
          ndist := streamField s.src (s.streamPos + 5) 5 + 1
          ncode := streamField s.src (s.streamPos + 10) 4 + 4 } t

/-- R123: the code-length code's 19 lengths: the `i`-th value read is the length of symbol `order[i]`, with the
rule's `order` written out, and the symbols for which none is read have length 0. -/
def Obligations.CodeLengthsStandInTheirOrder : Prop :=
  ∀ vals : List Nat, vals.length ≤ 19 → (arrangeLengths vals).length = 19 ∧
    ∀ i sym, [16, 17, 18, 0, 8, 7, 9, 6, 10, 5, 11, 4, 12, 3, 13, 2, 14, 1, 15][i]? = some sym →
      (arrangeLengths vals)[sym]? = some (vals.getD i 0)

/-- R124: a sequence of code lengths that is decoded has exactly the declared number of entries, each 0 to
15. While entries are missing a symbol is decoded and applied: 0 to 15 is the next entry; 16 reads 2
bits and repeats the last entry 3 times more than their value, 17 reads 3 bits and appends zeros, 3 more
than their value, 18 reads 7 bits and appends zeros, 11 more; a repeat past the bound fails with
`MalformedHeader`, after its bits are read, and writes nothing; and a 16 at the start fails so before
they are read. -/
def Obligations.LengthSequencesAreExact : Prop :=
  (∀ (code : HuffmanTable) (count : Nat) (L : List Nat) (s t : State),
    decodeLengths code count s = .done L t → L.length = count ∧ ∀ l ∈ L, l ≤ 15) ∧
  (∀ (code : HuffmanTable) (count fuel sym : Nat) (L : List Nat) (s t : State), L.length < count →
    decodeSymbol code s = .done sym t → lengthsLoop code count (fuel + 1) L s =
      (applyLengthSymbol count sym L t).andThen fun L' u => lengthsLoop code count fuel L' u) ∧
  (∀ (count sym : Nat) (L : List Nat) (s : State), sym ≤ 15 →
    applyLengthSymbol count sym L s = .done (L ++ [sym]) s) ∧
  (∀ (count : Nat) (s : State), applyLengthSymbol count 16 [] s = .fail .malformedHeader s) ∧
  (∀ (count sym width bias x : Nat) (L : List Nat) (s : State),
    (sym = 16 ∧ width = 2 ∧ bias = 3 ∧ L.getLast? = some x) ∨
      (sym = 17 ∧ width = 3 ∧ bias = 3 ∧ x = 0) ∨ (sym = 18 ∧ width = 7 ∧ bias = 11 ∧ x = 0) →
    s.Inv → s.failed = false → s.SourceResponsive → s.streamPos + width ≤ 8 * s.src.length →
    ∃ t, t.streamPos = s.streamPos + width ∧ t.Inv ∧ t.failed = false ∧
      applyLengthSymbol count sym L s =
        if count < L.length + (streamField s.src s.streamPos width + bias) then
          .fail .malformedHeader t
        else .done (L ++ List.replicate (streamField s.src s.streamPos width + bias) x) t) ∧
  (∀ (count r x : Nat) (L : List Nat) (s : State), count < L.length + r →
    putCopies count r x L s = .fail .malformedHeader s)

/-- R125: a stored block that is read is the next whole bytes of the stream: `LEN`, its complement, and
`LEN` bytes, appended to the output; it is read whenever those bytes are there; and a check value that is
not the complement fails with `MalformedHeader` (decision D17), after both 16-bit reads and no more. -/
def Obligations.StoredBlockCopiesRawBytes : Prop :=
  (∀ (out out' : List Byte) (s t : State), s.Inv → s.failed = false → s.alignPresent = true →
    s.SourceResponsive → storedBlock out s = .done out' t →
    streamField s.src (8 * s.srcPos + 16) 16 = (streamField s.src (8 * s.srcPos) 16 ^^^ 0xFFFF) ∧
    out' = out ++ (s.src.drop (s.srcPos + 4)).take (streamField s.src (8 * s.srcPos) 16) ∧
    t.srcPos = s.srcPos + 4 + streamField s.src (8 * s.srcPos) 16 ∧ t.failed = false) ∧
  (∀ (out : List Byte) (s : State), s.Inv → s.failed = false → s.alignPresent = true →
    s.SourceResponsive → s.srcPos + 4 ≤ s.src.length →
    (streamField s.src (8 * s.srcPos + 16) 16 ≠ (streamField s.src (8 * s.srcPos) 16 ^^^ 0xFFFF) →
      ∃ t, storedBlock out s = .fail .malformedHeader t ∧ t.srcPos = s.srcPos + 4 ∧
        t.failed = false) ∧
    (streamField s.src (8 * s.srcPos + 16) 16 = (streamField s.src (8 * s.srcPos) 16 ^^^ 0xFFFF) →
      s.srcPos + 4 + streamField s.src (8 * s.srcPos) 16 ≤ s.src.length →
      ∃ out' t, storedBlock out s = .done out' t))

/-- R101, R103: the type selects the block's handler. R111: a fixed block is the block body over the two
fixed tables. R123, R124, R126: a dynamic block reads its counts, then `ncode` groups of 3 bits, builds the
code-length table, decodes `nlen` lengths and then `ndist`, builds both tables, and is the block body
over them; an over-subscribed set fails with `InvalidHuffmanLengths`. R102: a session starts with an empty
output; after a block that succeeds it ends if `final` was set, and otherwise goes on with the output so
far; a failure ends it, passed on unchanged. (The loops' bounds are the model's, log 18.) -/
def Obligations.DriverRunsBlockAfterBlock : Prop :=
  (∀ (out : List Byte) (s : State),
    (s.alignPresent = true → runBlock 0 out s = storedBlock out s) ∧
    (s.alignPresent = false → runBlock 0 out s = .fail .unsupportedBlockType s) ∧
    runBlock 1 out s = fixedBlock out s ∧ runBlock 2 out s = dynamicBlock out s ∧
    runBlock 3 out s = .fail .malformedHeader s) ∧
  (∀ (lenCode distCode : HuffmanTable) (out : List Byte) (s : State),
    buildTable fixedLengths = some lenCode → buildTable fixedDistanceLengths = some distCode →
    fixedBlock out s = blockBody lenCode distCode (s.bitsLeft + 1) out s) ∧
  (∀ (c : DynamicCounts) (vals : List Nat) (out : List Byte) (s s1 s2 : State),
    readCounts s = .done c s1 → readFields 3 c.ncode s1 = .done vals s2 →
    (buildTable (arrangeLengths vals) = none →
      dynamicBlock out s = .fail .invalidHuffmanLengths s2) ∧
    ∀ (code : HuffmanTable) (lens dists : List Nat) (s3 s4 : State),
      buildTable (arrangeLengths vals) = some code →
      decodeLengths code c.nlen s2 = .done lens s3 →
      decodeLengths code c.ndist s3 = .done dists s4 →
      (buildTable lens = none ∨ buildTable dists = none →
        dynamicBlock out s = .fail .invalidHuffmanLengths s4) ∧
      ∀ lenCode distCode, buildTable lens = some lenCode → buildTable dists = some distCode →
        dynamicBlock out s = blockBody lenCode distCode (s4.bitsLeft + 1) out s4) ∧
  (∀ s : State, inflate s = driverLoop (s.bitsLeft + 1) [] s) ∧
  (∀ (fuel : Nat) (h : BlockHeader) (out : List Byte) (s s1 : State), readHeader s = .done h s1 →
    (∀ (out' : List Byte) (s2 : State), runBlock h.blockType out s1 = .done out' s2 →
      (h.final = 1 → driverLoop (fuel + 1) out s = .done out' s2) ∧
      (h.final = 0 → driverLoop (fuel + 1) out s = driverLoop fuel out' s2)) ∧
    (∀ (e : ClientError) (s2 : State), runBlock h.blockType out s1 = .fail e s2 →
      driverLoop (fuel + 1) out s = .fail e s2))

/-- R120, R128, R142, R167: the reader's failure is passed on unchanged and is the only one of its own: a
session of a healthy reader that fails has failed the reader just when it reports `EndOfInput`, and it
never offers a reserved word. -/
def Obligations.OnlyEndOfInputFailsTheReader : Prop :=
  ∀ (e : ClientError) (s t : State), s.failed = false → inflate s = .fail e t →
    (t.failed = true ↔ e = .endOfInput) ∧ e ≠ .badRequest

/-- A session always ends, with an output, a failure, or a source that never answers; and not in the
latter way when the source is responsive (log 18; R102, R153). -/
def Obligations.SessionsAlwaysEnd : Prop :=
  ∀ s t : State, inflate s ≠ .outOfFuel t ∧ (s.SourceResponsive → inflate s ≠ .stuck t)

/-- R102, R88: a session that succeeds leaves a healthy reader that meets the invariant and has pulled no
byte that lies wholly after the last bit read. -/
def Obligations.SuccessfulSessionPullsNoByteTooMany : Prop :=
  ∀ (out : List Byte) (s t : State), s.Inv → s.failed = false → s.SourceResponsive →
    inflate s = .done out t →
    t.Inv ∧ t.failed = false ∧ t.src = s.src ∧ t.srcPos = (t.streamPos + 7) / 8
end

