-- ==== Sys2Proof/Laws/State.lean ====
section
/-!
SUPPORT. What each named operation leaves in each field of the state: one lemma a field, so that no later
proof unfolds a record update. The last lemmas split the composed operations into these.
-/

namespace Sys2Proof.Machine

variable (s : State)

section AdvanceSource

@[simp] theorem State.advanceSource_bitbuf : s.advanceSource.bitbuf = s.bitbuf := rfl
@[simp] theorem State.advanceSource_bitcnt : s.advanceSource.bitcnt = s.bitcnt := rfl
@[simp] theorem State.advanceSource_failed : s.advanceSource.failed = s.failed := rfl
@[simp] theorem State.advanceSource_consumed : s.advanceSource.consumed = s.consumed := rfl
@[simp] theorem State.advanceSource_discarded : s.advanceSource.discarded = s.discarded := rfl
@[simp] theorem State.advanceSource_src : s.advanceSource.src = s.src := rfl
@[simp] theorem State.advanceSource_srcPos : s.advanceSource.srcPos = s.srcPos + 1 := rfl
@[simp] theorem State.advanceSource_delays : s.advanceSource.delays = s.delays.tail := rfl
@[simp] theorem State.advanceSource_inFlight : s.advanceSource.inFlight = s.inFlight := rfl
@[simp] theorem State.advanceSource_rsp : s.advanceSource.rsp = s.rsp := rfl
@[simp] theorem State.advanceSource_alignPresent : s.advanceSource.alignPresent = s.alignPresent := rfl
@[simp] theorem State.advanceSource_env : s.advanceSource.env = s.env := rfl
@[simp] theorem State.advanceSource_taken : s.advanceSource.taken = s.taken := rfl
@[simp] theorem State.advanceSource_freeCtr : s.advanceSource.freeCtr = s.freeCtr := rfl

end AdvanceSource

section MeetEnd

@[simp] theorem State.meetEnd_bitbuf : s.meetEnd.bitbuf = s.bitbuf := rfl
@[simp] theorem State.meetEnd_bitcnt : s.meetEnd.bitcnt = s.bitcnt := rfl
@[simp] theorem State.meetEnd_failed : s.meetEnd.failed = s.failed := rfl
@[simp] theorem State.meetEnd_consumed : s.meetEnd.consumed = s.consumed := rfl
@[simp] theorem State.meetEnd_discarded : s.meetEnd.discarded = s.discarded := rfl
@[simp] theorem State.meetEnd_src : s.meetEnd.src = s.src := rfl
@[simp] theorem State.meetEnd_srcPos : s.meetEnd.srcPos = s.srcPos := rfl
@[simp] theorem State.meetEnd_delays : s.meetEnd.delays = s.delays.tail := rfl
@[simp] theorem State.meetEnd_inFlight : s.meetEnd.inFlight = s.inFlight := rfl
@[simp] theorem State.meetEnd_rsp : s.meetEnd.rsp = s.rsp := rfl
@[simp] theorem State.meetEnd_alignPresent : s.meetEnd.alignPresent = s.alignPresent := rfl
@[simp] theorem State.meetEnd_env : s.meetEnd.env = s.env := rfl
@[simp] theorem State.meetEnd_taken : s.meetEnd.taken = s.taken := rfl
@[simp] theorem State.meetEnd_freeCtr : s.meetEnd.freeCtr = s.freeCtr := rfl

end MeetEnd

section PushByte
variable (b : Byte)

@[simp] theorem State.pushByte_bitbuf : (State.pushByte b s).bitbuf = s.bitbuf ||| placeByte b s.bitcnt.toNat := rfl
@[simp] theorem State.pushByte_bitcnt : (State.pushByte b s).bitcnt = s.bitcnt + 8 := rfl
@[simp] theorem State.pushByte_failed : (State.pushByte b s).failed = s.failed := rfl
@[simp] theorem State.pushByte_consumed : (State.pushByte b s).consumed = s.consumed := rfl
@[simp] theorem State.pushByte_discarded : (State.pushByte b s).discarded = s.discarded := rfl
@[simp] theorem State.pushByte_src : (State.pushByte b s).src = s.src := rfl
@[simp] theorem State.pushByte_srcPos : (State.pushByte b s).srcPos = s.srcPos := rfl
@[simp] theorem State.pushByte_delays : (State.pushByte b s).delays = s.delays := rfl
@[simp] theorem State.pushByte_inFlight : (State.pushByte b s).inFlight = s.inFlight := rfl
@[simp] theorem State.pushByte_rsp : (State.pushByte b s).rsp = s.rsp := rfl
@[simp] theorem State.pushByte_alignPresent : (State.pushByte b s).alignPresent = s.alignPresent := rfl
@[simp] theorem State.pushByte_env : (State.pushByte b s).env = s.env := rfl
@[simp] theorem State.pushByte_taken : (State.pushByte b s).taken = s.taken := rfl
@[simp] theorem State.pushByte_freeCtr : (State.pushByte b s).freeCtr = s.freeCtr := rfl

end PushByte

section Respond
variable (r : Response)

@[simp] theorem State.respond_bitbuf : (State.respond r s).bitbuf = s.bitbuf := rfl
@[simp] theorem State.respond_bitcnt : (State.respond r s).bitcnt = s.bitcnt := rfl
@[simp] theorem State.respond_failed : (State.respond r s).failed = failedAfter s.failed r := rfl
@[simp] theorem State.respond_consumed : (State.respond r s).consumed = s.consumed := rfl
@[simp] theorem State.respond_discarded : (State.respond r s).discarded = s.discarded := rfl
@[simp] theorem State.respond_src : (State.respond r s).src = s.src := rfl
@[simp] theorem State.respond_srcPos : (State.respond r s).srcPos = s.srcPos := rfl
@[simp] theorem State.respond_delays : (State.respond r s).delays = s.delays := rfl
@[simp] theorem State.respond_inFlight : (State.respond r s).inFlight = none := rfl
@[simp] theorem State.respond_rsp : (State.respond r s).rsp = some r := rfl
@[simp] theorem State.respond_alignPresent : (State.respond r s).alignPresent = s.alignPresent := rfl
@[simp] theorem State.respond_env : (State.respond r s).env = s.env := rfl
@[simp] theorem State.respond_taken : (State.respond r s).taken = s.taken := rfl
@[simp] theorem State.respond_freeCtr : (State.respond r s).freeCtr = s.freeCtr := rfl

end Respond

section ConsumeBits
variable (n : Nat)

@[simp] theorem State.consumeBits_bitbuf : (State.consumeBits n s).bitbuf = s.bitbuf >>> n := rfl
@[simp] theorem State.consumeBits_bitcnt : (State.consumeBits n s).bitcnt = s.bitcnt - BitVec.ofNat 5 n := rfl
@[simp] theorem State.consumeBits_failed : (State.consumeBits n s).failed = s.failed := rfl
@[simp] theorem State.consumeBits_consumed : (State.consumeBits n s).consumed = s.consumed + n := rfl
@[simp] theorem State.consumeBits_discarded : (State.consumeBits n s).discarded = s.discarded := rfl
@[simp] theorem State.consumeBits_src : (State.consumeBits n s).src = s.src := rfl
@[simp] theorem State.consumeBits_srcPos : (State.consumeBits n s).srcPos = s.srcPos := rfl
@[simp] theorem State.consumeBits_delays : (State.consumeBits n s).delays = s.delays := rfl
@[simp] theorem State.consumeBits_inFlight : (State.consumeBits n s).inFlight = s.inFlight := rfl
@[simp] theorem State.consumeBits_rsp : (State.consumeBits n s).rsp = s.rsp := rfl
@[simp] theorem State.consumeBits_alignPresent : (State.consumeBits n s).alignPresent = s.alignPresent := rfl
@[simp] theorem State.consumeBits_env : (State.consumeBits n s).env = s.env := rfl
@[simp] theorem State.consumeBits_taken : (State.consumeBits n s).taken = s.taken := rfl
@[simp] theorem State.consumeBits_freeCtr : (State.consumeBits n s).freeCtr = s.freeCtr := rfl

end ConsumeBits

section DiscardBits

@[simp] theorem State.discardBits_bitbuf : s.discardBits.bitbuf = 0 := rfl
@[simp] theorem State.discardBits_bitcnt : s.discardBits.bitcnt = 0 := rfl
@[simp] theorem State.discardBits_failed : s.discardBits.failed = s.failed := rfl
@[simp] theorem State.discardBits_consumed : s.discardBits.consumed = s.consumed := rfl
@[simp] theorem State.discardBits_discarded : s.discardBits.discarded = s.discarded + s.bitcnt.toNat := rfl
@[simp] theorem State.discardBits_src : s.discardBits.src = s.src := rfl
@[simp] theorem State.discardBits_srcPos : s.discardBits.srcPos = s.srcPos := rfl
@[simp] theorem State.discardBits_delays : s.discardBits.delays = s.delays := rfl
@[simp] theorem State.discardBits_inFlight : s.discardBits.inFlight = s.inFlight := rfl
@[simp] theorem State.discardBits_rsp : s.discardBits.rsp = s.rsp := rfl
@[simp] theorem State.discardBits_alignPresent : s.discardBits.alignPresent = s.alignPresent := rfl
@[simp] theorem State.discardBits_env : s.discardBits.env = s.env := rfl
@[simp] theorem State.discardBits_taken : s.discardBits.taken = s.taken := rfl
@[simp] theorem State.discardBits_freeCtr : s.discardBits.freeCtr = s.freeCtr := rfl

end DiscardBits

section LoseBuffer

@[simp] theorem State.loseBuffer_bitbuf : s.loseBuffer.bitbuf = Config.freeBitbuf s.freeCtr := rfl
@[simp] theorem State.loseBuffer_bitcnt : s.loseBuffer.bitcnt = Config.freeBitcnt s.freeCtr := rfl
@[simp] theorem State.loseBuffer_failed : s.loseBuffer.failed = s.failed := rfl
@[simp] theorem State.loseBuffer_consumed : s.loseBuffer.consumed = s.consumed := rfl
@[simp] theorem State.loseBuffer_discarded : s.loseBuffer.discarded = s.discarded := rfl
@[simp] theorem State.loseBuffer_src : s.loseBuffer.src = s.src := rfl
@[simp] theorem State.loseBuffer_srcPos : s.loseBuffer.srcPos = s.srcPos := rfl
@[simp] theorem State.loseBuffer_delays : s.loseBuffer.delays = s.delays := rfl
@[simp] theorem State.loseBuffer_inFlight : s.loseBuffer.inFlight = s.inFlight := rfl
@[simp] theorem State.loseBuffer_rsp : s.loseBuffer.rsp = s.rsp := rfl
@[simp] theorem State.loseBuffer_alignPresent : s.loseBuffer.alignPresent = s.alignPresent := rfl
@[simp] theorem State.loseBuffer_env : s.loseBuffer.env = s.env := rfl
@[simp] theorem State.loseBuffer_taken : s.loseBuffer.taken = s.taken := rfl
@[simp] theorem State.loseBuffer_freeCtr : s.loseBuffer.freeCtr = s.freeCtr + 1 := rfl

end LoseBuffer

section Hold
variable (i : Instr)

@[simp] theorem State.hold_bitbuf : (State.hold i s).bitbuf = s.bitbuf := rfl
@[simp] theorem State.hold_bitcnt : (State.hold i s).bitcnt = s.bitcnt := rfl
@[simp] theorem State.hold_failed : (State.hold i s).failed = s.failed := rfl
@[simp] theorem State.hold_consumed : (State.hold i s).consumed = s.consumed := rfl
@[simp] theorem State.hold_discarded : (State.hold i s).discarded = s.discarded := rfl
@[simp] theorem State.hold_src : (State.hold i s).src = s.src := rfl
@[simp] theorem State.hold_srcPos : (State.hold i s).srcPos = s.srcPos := rfl
@[simp] theorem State.hold_delays : (State.hold i s).delays = tickDelays s.delays := rfl
@[simp] theorem State.hold_inFlight : (State.hold i s).inFlight = some i := rfl
@[simp] theorem State.hold_rsp : (State.hold i s).rsp = s.rsp := rfl
@[simp] theorem State.hold_alignPresent : (State.hold i s).alignPresent = s.alignPresent := rfl
@[simp] theorem State.hold_env : (State.hold i s).env = s.env := rfl
@[simp] theorem State.hold_taken : (State.hold i s).taken = s.taken := rfl
@[simp] theorem State.hold_freeCtr : (State.hold i s).freeCtr = s.freeCtr := rfl

end Hold

section TakeResponse
variable (r : Response)

@[simp] theorem State.takeResponse_bitbuf : (State.takeResponse r s).bitbuf = s.bitbuf := rfl
@[simp] theorem State.takeResponse_bitcnt : (State.takeResponse r s).bitcnt = s.bitcnt := rfl
@[simp] theorem State.takeResponse_failed : (State.takeResponse r s).failed = s.failed := rfl
@[simp] theorem State.takeResponse_consumed : (State.takeResponse r s).consumed = s.consumed := rfl
@[simp] theorem State.takeResponse_discarded : (State.takeResponse r s).discarded = s.discarded := rfl
@[simp] theorem State.takeResponse_src : (State.takeResponse r s).src = s.src := rfl
@[simp] theorem State.takeResponse_srcPos : (State.takeResponse r s).srcPos = s.srcPos := rfl
@[simp] theorem State.takeResponse_delays : (State.takeResponse r s).delays = s.delays := rfl
@[simp] theorem State.takeResponse_inFlight : (State.takeResponse r s).inFlight = s.inFlight := rfl
@[simp] theorem State.takeResponse_rsp : (State.takeResponse r s).rsp = none := rfl
@[simp] theorem State.takeResponse_alignPresent : (State.takeResponse r s).alignPresent = s.alignPresent := rfl
@[simp] theorem State.takeResponse_env : (State.takeResponse r s).env = s.env := rfl
@[simp] theorem State.takeResponse_taken : (State.takeResponse r s).taken = s.taken ++ [r] := rfl
@[simp] theorem State.takeResponse_freeCtr : (State.takeResponse r s).freeCtr = s.freeCtr := rfl

end TakeResponse

section Restart
variable (src : List Byte) (ds : List Delay)

@[simp] theorem State.restart_bitbuf : (State.restart src ds s).bitbuf = 0 := rfl
@[simp] theorem State.restart_bitcnt : (State.restart src ds s).bitcnt = 0 := rfl
@[simp] theorem State.restart_failed : (State.restart src ds s).failed = false := rfl
@[simp] theorem State.restart_consumed : (State.restart src ds s).consumed = 0 := rfl
@[simp] theorem State.restart_discarded : (State.restart src ds s).discarded = 0 := rfl
@[simp] theorem State.restart_src : (State.restart src ds s).src = src := rfl
@[simp] theorem State.restart_srcPos : (State.restart src ds s).srcPos = 0 := rfl
@[simp] theorem State.restart_delays : (State.restart src ds s).delays = ds := rfl
@[simp] theorem State.restart_inFlight : (State.restart src ds s).inFlight = none := rfl
@[simp] theorem State.restart_rsp : (State.restart src ds s).rsp = none := rfl
@[simp] theorem State.restart_alignPresent : (State.restart src ds s).alignPresent = s.alignPresent := rfl
@[simp] theorem State.restart_env : (State.restart src ds s).env = s.env := rfl
@[simp] theorem State.restart_taken : (State.restart src ds s).taken = [] := rfl
@[simp] theorem State.restart_freeCtr : (State.restart src ds s).freeCtr = s.freeCtr := rfl

end Restart

theorem State.deliver_eq (n : Nat) :
    s.deliver n = (s.consumeBits n).respond (.ok (valueOf s.bitbuf n)) := rfl

theorem State.raiseEndOfInput_eq : s.raiseEndOfInput = s.loseBuffer.respond .endOfInput := rfl

theorem State.raiseBadRequest_eq : s.raiseBadRequest = s.respond .badRequest := rfl

@[simp] theorem failedAfter_ok (b : Bool) (v : Half) : failedAfter b (.ok v) = b := by
  simp [failedAfter, Response.isOk, Response.value]

@[simp] theorem failedAfter_endOfInput (b : Bool) : failedAfter b .endOfInput = true := by
  simp [failedAfter, Response.isOk, Response.value]

@[simp] theorem failedAfter_badRequest (b : Bool) : failedAfter b .badRequest = true := by
  simp [failedAfter, Response.isOk, Response.value]

/-- Two states with the same fields are the same: how an equation of states is proved field by field. -/
theorem State.eq_of_fields (t : State) (h1 : s.bitbuf = t.bitbuf) (h2 : s.bitcnt = t.bitcnt)
    (h3 : s.failed = t.failed) (h4 : s.consumed = t.consumed) (h5 : s.discarded = t.discarded)
    (h6 : s.src = t.src) (h7 : s.srcPos = t.srcPos) (h8 : s.delays = t.delays)
    (h9 : s.inFlight = t.inFlight) (h10 : s.rsp = t.rsp) (h11 : s.alignPresent = t.alignPresent)
    (h12 : s.env = t.env) (h13 : s.taken = t.taken) (h14 : s.freeCtr = t.freeCtr) : s = t := by
  cases s; cases t
  cases h1; cases h2; cases h3; cases h4; cases h5; cases h6; cases h7
  cases h8; cases h9; cases h10; cases h11; cases h12; cases h13; cases h14
  rfl

end Sys2Proof.Machine
end

