-- ==== Sys2Proof/Laws/Stream.lean ====
section
/-!
SUPPORT. Stream bits and stream fields (00_scope.md R9; 20_memory.md R41), and the masked value of a
buffer (40_bitreader_commands.md R81).
-/

namespace Sys2Proof.Machine

theorem sbit_eq_getLsbD {S : List Byte} {i : Nat} {b : Byte} (h : S[i / 8]? = some b) :
    sbit S i = b.getLsbD (i % 8) := by
  simp [sbit, h]

theorem streamField_lt (S : List Byte) (s n : Nat) : streamField S s n < 2 ^ n := by
  induction n with
  | zero => simp [streamField]
  | succ n ih =>
    have hb : (sbit S (s + n)).toNat ≤ 1 := Bool.toNat_le _
    have : (sbit S (s + n)).toNat <<< n ≤ 2 ^ n := by
      rw [Nat.shiftLeft_eq]; nlinarith [Nat.two_pow_pos n]
    simp only [streamField, pow_succ]; omega

theorem testBit_streamField (S : List Byte) (s n j : Nat) :
    (streamField S s n).testBit j = (decide (j < n) && sbit S (s + j)) := by
  induction n with
  | zero => simp [streamField]
  | succ n ih =>
    have hlt := streamField_lt S s n
    have hsum : streamField S s (n + 1) = 2 ^ n * (sbit S (s + n)).toNat + streamField S s n := by
      simp [streamField, Nat.shiftLeft_eq]; ring
    rw [hsum, Nat.testBit_two_pow_mul_add _ hlt, ih]
    by_cases h : j < n
    · simp [h, Nat.lt_succ_of_lt h]
    · rcases Nat.lt_or_ge n j with h' | h'
      · have : ¬ j < n + 1 := by omega
        have h2 : (sbit S (s + n)).toNat < 2 ^ (j - n) :=
          lt_of_le_of_lt (Bool.toNat_le _) (Nat.one_lt_two_pow (by omega))
        simp [h, this, Nat.testBit_lt_two_pow h2]
      · obtain rfl : j = n := by omega
        cases sbit S (s + j) <;> simp

/-- A field of `a + b` bits is the first `a` bits below the next `b` (R41). -/
theorem streamField_add (S : List Byte) (s a b : Nat) :
    streamField S s (a + b) = streamField S s a ||| streamField S (s + a) b <<< a := by
  refine Nat.eq_of_testBit_eq fun j => ?_
  simp only [Nat.testBit_or, Nat.testBit_shiftLeft, testBit_streamField]
  by_cases h : j < a
  · have : ¬ a ≤ j := by omega
    have h2 : j < a + b := by omega
    simp [h, this, h2]
  · have ha : a ≤ j := by omega
    have h3 : s + a + (j - a) = s + j := by omega
    have h4 : (j < a + b) ↔ (j - a < b) := by omega
    simp [h, ha, h3, h4]

theorem getLsbD_mask (n j : Nat) (hn : n ≤ 16) : (mask n).getLsbD j = decide (j < n) := by
  have h : ∀ n : Fin 17, ∀ j : Fin 32, (mask n.val).getLsbD j.val = decide (j.val < n.val) := by
    decide
  by_cases hj : j < 32
  · exact h ⟨n, by omega⟩ ⟨j, hj⟩
  · have : ¬ j < n := by omega
    simp [BitVec.getLsbD_of_ge _ _ (Nat.le_of_not_lt hj), this]

/-- The value `READ n` takes from a buffer that holds the stream's bits from `s` on (R81, R86). -/
theorem valueOf_eq_streamField {buf : BitVec Config.bitbufWidth} {S : List Byte} {s n : Nat}
    (hn : n ≤ 16) (h : ∀ j, j < n → buf.getLsbD j = sbit S (s + j)) :
    valueOf buf n = BitVec.ofNat 16 (streamField S s n) := by
  refine BitVec.eq_of_getLsbD_eq fun j hj => ?_
  simp only [valueOf, BitVec.getLsbD_setWidth, BitVec.getLsbD_and, getLsbD_mask n j hn,
    BitVec.getLsbD_ofNat, testBit_streamField]
  by_cases hjn : j < n
  · simp [hj, hjn, h j hjn]
  · simp [hjn]

/-- `bitbuf & mask(n)` is below `2^n` whatever the buffer holds (40_bitreader_commands.md R83(d)). -/
theorem valueOf_lt (buf : BitVec Config.bitbufWidth) {n : Nat} (hn : n ≤ 16) :
    (valueOf buf n).toNat < 2 ^ n := by
  refine Nat.lt_pow_two_of_testBit _ fun j hj => ?_
  have : ¬ j < n := by omega
  rw [BitVec.testBit_toNat, valueOf, BitVec.getLsbD_setWidth, BitVec.getLsbD_and,
    getLsbD_mask n j hn]
  simp [this]

end Sys2Proof.Machine
end

