-- ==== Sys2Proof/Laws/Refill.lean ====
section
/-!
SUPPORT. What a pull and a refill can do (20_memory.md R43, R46; 40_bitreader_commands.md R81), once
and for all.
-/

namespace Sys2Proof.Machine

/-- The buffer holds the stream's bits from `pos` on, up to the source's position, and nothing else
(10_state.md R24). -/
structure State.BufferHolds (s : State) (pos : Nat) : Prop where
  position : s.bitcnt.toNat + pos = 8 * s.srcPos
  buffered : ∀ j, j < s.bitcnt.toNat → s.bitbuf.getLsbD j = sbit s.src (pos + j)
  cleared : ∀ k, s.bitcnt.toNat ≤ k → s.bitbuf.getLsbD k = false

/-- A pull answered with a byte (R43). -/
theorem pullByte_of_lt {s : State} (h : s.srcPos < s.src.length) :
    pullByte s = .byte (s.src[s.srcPos]'h) s.advanceSource := by
  simp [pullByte, List.getElem?_eq_getElem h]

/-- A pull answered with `End` (R43). -/
theorem pullByte_of_ge {s : State} (h : s.src.length ≤ s.srcPos) :
    pullByte s = .ended s.meetEnd := by
  simp [pullByte, List.getElem?_eq_none h]

theorem getLsbD_placeByte (b : Byte) (k j : Nat) :
    (placeByte b k).getLsbD j = (decide (j < 32) && (decide (k ≤ j) && b.getLsbD (j - k))) := by
  by_cases h1 : j < 32 <;> by_cases h2 : k ≤ j
  · simp [placeByte, h1, h2, Nat.not_lt.mpr h2]
  · simp [placeByte, h1, h2, Nat.lt_of_not_le h2]
  · simp [placeByte, h1]
  · simp [placeByte, h1]

theorem toNat_bitcnt_add_eight {c : BitVec Config.bitcntWidth} (h : c.toNat < 16) :
    (c + 8).toNat = c.toNat + 8 := by
  simp only [Config.bitcntWidth] at *
  bv_omega

/-- One byte pulled and pushed keeps the buffer's meaning (R24, R81). -/
theorem State.BufferHolds.pull {s : State} {pos : Nat} (h : s.BufferHolds pos)
    (hc : s.bitcnt.toNat < 16) (hs : s.srcPos < s.src.length) :
    (s.advanceSource.pushByte (s.src[s.srcPos]'hs)).BufferHolds pos := by
  have hp := h.position
  have hcnt : (s.advanceSource.pushByte (s.src[s.srcPos]'hs)).bitcnt.toNat = s.bitcnt.toNat + 8 := by
    simpa using toNat_bitcnt_add_eight hc
  refine ⟨by rw [hcnt]; simp; omega, fun j hj => ?_, fun k hk => ?_⟩
  · rw [hcnt] at hj
    have hj32 : j < 32 := by omega
    simp only [State.pushByte_bitbuf, State.advanceSource_bitbuf, State.advanceSource_bitcnt,
      State.pushByte_src, State.advanceSource_src, BitVec.getLsbD_or, getLsbD_placeByte]
    by_cases hjc : j < s.bitcnt.toNat
    · simp [h.buffered j hjc, Nat.not_le.mpr hjc]
    · have hge : s.bitcnt.toNat ≤ j := by omega
      have hdiv : (pos + j) / 8 = s.srcPos := by omega
      have hmod : (pos + j) % 8 = j - s.bitcnt.toNat := by omega
      have hsb : sbit s.src (pos + j) = (s.src[s.srcPos]'hs).getLsbD ((pos + j) % 8) :=
        sbit_eq_getLsbD (by rw [hdiv]; exact List.getElem?_eq_getElem hs)
      rw [h.cleared j hge, hsb, hmod]
      simp [hj32, hge]
  · rw [hcnt] at hk
    simp only [State.pushByte_bitbuf, State.advanceSource_bitbuf, State.advanceSource_bitcnt,
      BitVec.getLsbD_or, getLsbD_placeByte, h.cleared k (by omega)]
    have : 8 ≤ k - s.bitcnt.toNat := by omega
    simp [BitVec.getLsbD_of_ge _ _ this]

/-- A refill that finds enough bits (R81): it pulls `ceil((n - bitcnt) / 8)` bytes, and the buffer then
holds at least `n` and at most `max bitcnt (n + 7)` bits of the stream. -/
theorem refill_filled {n : Nat} (hn : n ≤ 16) :
    ∀ (fuel : Nat) (s : State) (pos : Nat), s.BufferHolds pos →
      n ≤ s.bitcnt.toNat + 8 * fuel → pos + n ≤ 8 * s.src.length →
      ∃ t, refill n fuel s = .filled t ∧ t.BufferHolds pos ∧ n ≤ t.bitcnt.toNat ∧
        t.bitcnt.toNat = s.bitcnt.toNat + 8 * ((n - s.bitcnt.toNat + 7) / 8) ∧
        t = { s with
          bitbuf := t.bitbuf, bitcnt := t.bitcnt
          srcPos := s.srcPos + (n - s.bitcnt.toNat + 7) / 8
          delays := s.delays.drop ((n - s.bitcnt.toNat + 7) / 8) }
  | 0, s, pos, h, hf, _ => by
    have hz : n - s.bitcnt.toNat = 0 := by omega
    exact ⟨s, rfl, h, by omega, by omega, by simp [hz]⟩
  | fuel + 1, s, pos, h, hf, hlen => by
    by_cases hlt : s.bitcnt.toNat < n
    · have hs : s.srcPos < s.src.length := by have := h.position; omega
      have hc : s.bitcnt.toNat < 16 := by omega
      have hcnt : (s.advanceSource.pushByte (s.src[s.srcPos]'hs)).bitcnt.toNat =
          s.bitcnt.toNat + 8 := by simpa using toNat_bitcnt_add_eight hc
      obtain ⟨t, ht, hold, hge, hval, heq⟩ :=
        refill_filled hn fuel _ pos (h.pull hc hs) (by rw [hcnt]; omega) (by simpa using hlen)
      rw [hcnt] at hval heq
      have hk : (n - s.bitcnt.toNat + 7) / 8 = (n - (s.bitcnt.toNat + 8) + 7) / 8 + 1 := by omega
      refine ⟨t, by simp [refill, hlt, pullByte_of_lt hs, ht], hold, hge, by omega, ?_⟩
      rw [heq]
      refine State.eq_of_fields _ _ rfl rfl rfl rfl rfl rfl ?_ ?_ rfl rfl rfl rfl rfl rfl
      · simp [hk]; omega
      · simp [hk, List.drop_tail]
    · have hz : n - s.bitcnt.toNat = 0 := by omega
      exact ⟨s, by simp [refill, hlt], h, by omega, by omega, by simp [hz]⟩

/-- A refill that meets the end of the source (R81, R89(b)): every byte has been pulled, and the pull
answered `End` uses up its delay too. -/
theorem refill_ended {n : Nat} (hn : n ≤ 16) :
    ∀ (fuel : Nat) (s : State) (pos : Nat), s.BufferHolds pos → s.srcPos ≤ s.src.length →
      n ≤ s.bitcnt.toNat + 8 * fuel → 8 * s.src.length < pos + n →
      ∃ t, refill n fuel s = .ended t ∧
        t = { s with
          bitbuf := t.bitbuf, bitcnt := t.bitcnt
          srcPos := s.src.length
          delays := s.delays.drop (s.src.length - s.srcPos + 1) }
  | 0, s, pos, h, hsp, hf, hlen => by have := h.position; omega
  | fuel + 1, s, pos, h, hsp, hf, hlen => by
    have hlt : s.bitcnt.toNat < n := by have := h.position; omega
    rcases Nat.lt_or_ge s.srcPos s.src.length with hs | hs
    · have hc : s.bitcnt.toNat < 16 := by omega
      have hcnt : (s.advanceSource.pushByte (s.src[s.srcPos]'hs)).bitcnt.toNat =
          s.bitcnt.toNat + 8 := by simpa using toNat_bitcnt_add_eight hc
      obtain ⟨t, ht, heq⟩ := refill_ended hn fuel _ pos (h.pull hc hs) (by simpa using hs)
        (by rw [hcnt]; omega) (by simpa using hlen)
      refine ⟨t, by simp [refill, hlt, pullByte_of_lt hs, ht], ?_⟩
      rw [heq]
      refine State.eq_of_fields _ _ rfl rfl rfl rfl rfl rfl rfl ?_ rfl rfl rfl rfl rfl rfl
      have : s.src.length - s.srcPos = s.src.length - (s.srcPos + 1) + 1 := by omega
      simp [this, List.drop_tail]
    · refine ⟨s.meetEnd, by simp [refill, hlt, pullByte_of_ge hs], ?_⟩
      refine State.eq_of_fields _ _ rfl rfl rfl rfl rfl rfl ?_ ?_ rfl rfl rfl rfl rfl rfl
      · simp; omega
      · have : s.src.length - s.srcPos = 0 := by omega
        simp [this]

/-- What a refill never touches, on any state: only the buffer, the source's position and the delays
change. -/
theorem refill_frame (n : Nat) : ∀ (fuel : Nat) (s : State),
    match refill n fuel s with
    | .filled t => t = { s with
        bitbuf := t.bitbuf, bitcnt := t.bitcnt, srcPos := t.srcPos, delays := t.delays }
    | .ended t => t = { s with
        bitbuf := t.bitbuf, bitcnt := t.bitcnt, srcPos := t.srcPos, delays := t.delays }
  | 0, s => rfl
  | fuel + 1, s => by
    by_cases hlt : s.bitcnt.toNat < n
    · rcases Nat.lt_or_ge s.srcPos s.src.length with hs | hs
      · have ih := refill_frame n fuel (s.advanceSource.pushByte (s.src[s.srcPos]'hs))
        simp only [refill, hlt, if_true, pullByte_of_lt hs]
        cases hr : refill n fuel (s.advanceSource.pushByte (s.src[s.srcPos]'hs)) <;>
          · rw [hr] at ih; simp only at ih ⊢; rw [ih]; rfl
      · simp only [refill, hlt, if_true, pullByte_of_ge hs]; rfl
    · simp only [refill, hlt, if_false]

end Sys2Proof.Machine
end

