-- ==== Sys2Proof/Laws/Read.lean ====
section
/-!
SUPPORT. What `READ n` does past its checks (40_bitreader_commands.md R81): its two ends on a reader
that meets the invariant, as whole next states, and what it can touch on any state.
-/

namespace Sys2Proof.Machine

theorem State.Inv.bufferHolds {s : State} (h : s.Inv) (hf : s.failed = false) :
    s.BufferHolds s.streamPos :=
  ⟨h.position hf, h.buffered hf, h.cleared hf⟩

/-- The bits left after a read, as a register value: the buffer shifted right by `n`. -/
theorem shifted_eq_streamField {t : State} {pos n : Nat} (h : t.BufferHolds pos)
    (hn : n ≤ t.bitcnt.toNat) :
    t.bitbuf >>> n = BitVec.ofNat Config.bitbufWidth
      (streamField t.src (pos + n) (t.bitcnt.toNat - n)) := by
  refine BitVec.eq_of_getLsbD_eq fun j hj => ?_
  simp only [BitVec.getLsbD_ushiftRight, BitVec.getLsbD_ofNat, testBit_streamField]
  by_cases hjn : j < t.bitcnt.toNat - n
  · have h1 : n + j < t.bitcnt.toNat := by omega
    simp [hj, hjn, h.buffered _ h1, Nat.add_assoc]
  · have h1 : t.bitcnt.toNat ≤ n + j := by omega
    simp [hjn, h.cleared _ h1]

theorem toNat_bitcnt_sub {c : BitVec Config.bitcntWidth} {n : Nat} (h : n ≤ c.toNat) :
    (c - BitVec.ofNat Config.bitcntWidth n).toNat = c.toNat - n := by
  have hc := c.isLt
  rw [BitVec.toNat_sub, BitVec.toNat_ofNat]
  simp only [Config.bitcntWidth] at *
  omega

/-- `READ n` with enough bits left, on a reader that meets the invariant: the whole next state (R81,
R86, R88). The value is the stream's field; the buffer holds what is left of the last byte pulled. -/
theorem readBits_enough {s : State} (h : s.Inv) (hf : s.failed = false) {n : Nat} (hn : n ≤ 16)
    (hlen : s.streamPos + n ≤ 8 * s.src.length) :
    readBits n s = { s with
      bitbuf := BitVec.ofNat 32 (streamField s.src (s.streamPos + n)
        (8 * ((s.streamPos + n + 7) / 8) - (s.streamPos + n)))
      bitcnt := BitVec.ofNat 5 (8 * ((s.streamPos + n + 7) / 8) - (s.streamPos + n))
      consumed := s.consumed + n
      srcPos := (s.streamPos + n + 7) / 8
      delays := s.delays.drop (s.pullsMade n)
      inFlight := none
      rsp := some (.ok (BitVec.ofNat 16 (streamField s.src s.streamPos n))) } := by
  have hb := h.bufferHolds hf
  have hc := h.bitcnt_le hf
  have hp := hb.position
  obtain ⟨t, ht, hold, hge, hval, heq⟩ := refill_filled hn maxPulls s _ hb (by simp [maxPulls]; omega) hlen
  have hcnt : t.bitcnt.toNat - n = 8 * ((s.streamPos + n + 7) / 8) - (s.streamPos + n) := by omega
  have hsrc : t.src = s.src := by rw [heq]
  have hpulls : s.pullsMade n = (n - s.bitcnt.toNat + 7) / 8 := by
    have := h.srcPos_le
    simp only [State.pullsMade]; omega
  simp only [readBits, ht]
  refine State.eq_of_fields _ _ ?_ ?_ ?_ ?_ ?_ ?_ ?_ ?_ ?_ ?_ ?_ ?_ ?_ ?_
  · show t.bitbuf >>> n = _
    rw [shifted_eq_streamField hold hge, hsrc, hcnt]
  · show t.bitcnt - _ = _
    apply BitVec.eq_of_toNat_eq
    rw [toNat_bitcnt_sub hge, hcnt, BitVec.toNat_ofNat]
    simp only [Config.bitcntWidth]
    omega
  · show failedAfter t.failed _ = _
    rw [failedAfter_ok, heq]
  · show t.consumed + n = _
    rw [heq]
  · show t.discarded = _
    rw [heq]
  · exact hsrc
  · show t.srcPos = _
    rw [heq]; simp only; omega
  · show t.delays = _
    rw [heq, hpulls]
  · rfl
  · show some (Response.ok (valueOf t.bitbuf n)) = _
    rw [valueOf_eq_streamField hn fun j hj => hold.buffered j (by omega), hsrc]
  · show t.alignPresent = _
    rw [heq]
  · show t.env = _
    rw [heq]
  · show t.taken = _
    rw [heq]
  · show t.freeCtr = _
    rw [heq]

/-- `READ n` with too few bits left, on a reader that meets the invariant: the whole next state (R89;
60_exceptions.md R140). What the buffer then holds is a free value. -/
theorem readBits_short {s : State} (h : s.Inv) (hf : s.failed = false) {n : Nat} (hn : n ≤ 16)
    (hlen : 8 * s.src.length < s.streamPos + n) :
    readBits n s = { s with
      bitbuf := Config.freeBitbuf s.freeCtr
      bitcnt := Config.freeBitcnt s.freeCtr
      freeCtr := s.freeCtr + 1
      failed := true
      srcPos := s.src.length
      delays := s.delays.drop (s.pullsMade n)
      inFlight := none
      rsp := some .endOfInput } := by
  have hb := h.bufferHolds hf
  have hc := h.bitcnt_le hf
  have hp := hb.position
  have hsp := h.srcPos_le
  obtain ⟨t, ht, heq⟩ := refill_ended hn maxPulls s _ hb hsp (by simp [maxPulls]; omega) hlen
  have hpulls : s.pullsMade n = s.src.length - s.srcPos + 1 := by
    simp only [State.pullsMade]; omega
  simp only [readBits, ht]
  rw [heq, hpulls]
  refine State.eq_of_fields _ _ rfl rfl ?_ rfl rfl rfl rfl rfl rfl rfl rfl rfl rfl rfl
  exact failedAfter_endOfInput _

/-- `READ n` with the bits already in the buffer pulls nothing (40_bitreader_commands.md R83(b)), on any
state. -/
theorem readBits_buffered {s : State} {n : Nat} (h : n ≤ s.bitcnt.toNat) :
    readBits n s = s.deliver n := by
  simp [readBits, refill, maxPulls, Nat.not_lt.mpr h]

/-- How many pulls a refill makes on any state: the source moves forwards, by at most the bytes the
buffer lacks (20_memory.md R46). -/
theorem refill_pulls (n : Nat) : ∀ (fuel : Nat) (s : State),
    n ≤ 16 →
    match refill n fuel s with
    | .filled t => s.srcPos ≤ t.srcPos ∧ t.srcPos ≤ s.srcPos + (n - s.bitcnt.toNat + 7) / 8 ∧
        (n ≤ s.bitcnt.toNat + 8 * fuel → n ≤ t.bitcnt.toNat) ∧
        t.bitcnt.toNat + 8 * s.srcPos = s.bitcnt.toNat + 8 * t.srcPos
    | .ended t => s.srcPos ≤ t.srcPos ∧ t.srcPos ≤ s.srcPos + (n - s.bitcnt.toNat + 7) / 8 ∧
        s.src.length ≤ t.srcPos
  | 0, s, _ => by simp [refill]
  | fuel + 1, s, hn => by
    by_cases hlt : s.bitcnt.toNat < n
    · rcases Nat.lt_or_ge s.srcPos s.src.length with hs | hs
      · have ih := refill_pulls n fuel (s.advanceSource.pushByte (s.src[s.srcPos]'hs)) hn
        have hcnt : (s.advanceSource.pushByte (s.src[s.srcPos]'hs)).bitcnt.toNat =
            s.bitcnt.toNat + 8 := by
          have hc : s.bitcnt.toNat < 16 := by omega
          simpa using toNat_bitcnt_add_eight hc
        simp only [refill, hlt, if_true, pullByte_of_lt hs]
        rw [hcnt] at ih
        cases hr : refill n fuel (s.advanceSource.pushByte (s.src[s.srcPos]'hs)) <;>
          rw [hr] at ih <;> simp only [State.pushByte_srcPos, State.advanceSource_srcPos,
            State.pushByte_src, State.advanceSource_src] at ih ⊢ <;> omega
      · simp only [refill, hlt, if_true, pullByte_of_ge hs, State.meetEnd_srcPos]; omega
    · simp only [refill, hlt, if_false]
      exact ⟨le_rfl, by omega, fun _ => by omega, trivial⟩

/-- No refill moves past the end of the source (20_memory.md R43). -/
theorem refill_srcPos_le (n : Nat) : ∀ (fuel : Nat) (s : State),
    match refill n fuel s with
    | .filled t => t.srcPos ≤ max s.srcPos s.src.length
    | .ended t => t.srcPos ≤ max s.srcPos s.src.length
  | 0, s => by simp [refill]
  | fuel + 1, s => by
    by_cases hlt : s.bitcnt.toNat < n
    · rcases Nat.lt_or_ge s.srcPos s.src.length with hs | hs
      · have ih := refill_srcPos_le n fuel (s.advanceSource.pushByte (s.src[s.srcPos]'hs))
        simp only [refill, hlt, if_true, pullByte_of_lt hs]
        cases hr : refill n fuel (s.advanceSource.pushByte (s.src[s.srcPos]'hs)) <;>
          rw [hr] at ih <;> simp only [State.pushByte_srcPos, State.advanceSource_srcPos,
            State.pushByte_src, State.advanceSource_src] at ih ⊢ <;> omega
      · simp only [refill, hlt, if_true, pullByte_of_ge hs, State.meetEnd_srcPos]; omega
    · simp only [refill, hlt, if_false]; omega

theorem readBits_srcPos_le (n : Nat) (s : State) :
    (readBits n s).srcPos ≤ max s.srcPos s.src.length := by
  have h := refill_srcPos_le n maxPulls s
  unfold readBits
  cases hr : refill n maxPulls s <;> rw [hr] at h <;> exact h

/-- What `READ n` can touch past its checks, on any state: never the source, what is built in, the
client's side or `discarded`. -/
theorem readBits_frame (n : Nat) (s : State) :
    readBits n s = { s with
      bitbuf := (readBits n s).bitbuf, bitcnt := (readBits n s).bitcnt
      failed := (readBits n s).failed, consumed := (readBits n s).consumed
      srcPos := (readBits n s).srcPos, delays := (readBits n s).delays
      inFlight := none, rsp := (readBits n s).rsp, freeCtr := (readBits n s).freeCtr } := by
  have hfr := refill_frame n maxPulls s
  unfold readBits
  cases hr : refill n maxPulls s <;> rw [hr] at hfr <;> simp only at hfr ⊢ <;> rw [hfr] <;> rfl

/-- How `READ n` ends past its checks, on any state: with a value and `n` more bits consumed, or with
`EndOfInput` and every byte pulled. -/
theorem readBits_cases {n : Nat} (hn : n ≤ 16) (s : State) :
    (∃ v : Half, (readBits n s).rsp = some (.ok v) ∧ v.toNat < 2 ^ n ∧
      (readBits n s).failed = s.failed ∧ (readBits n s).consumed = s.consumed + n ∧
      (readBits n s).freeCtr = s.freeCtr ∧
      (readBits n s).bitcnt.toNat + n + 8 * s.srcPos =
        s.bitcnt.toNat + 8 * (readBits n s).srcPos ∧
      s.srcPos ≤ (readBits n s).srcPos ∧
      (readBits n s).srcPos ≤ s.srcPos + (n - s.bitcnt.toNat + 7) / 8) ∨
    ((readBits n s).rsp = some .endOfInput ∧ (readBits n s).failed = true ∧
      (readBits n s).consumed = s.consumed ∧ s.bitcnt.toNat < n ∧
      s.src.length ≤ (readBits n s).srcPos ∧ s.srcPos ≤ (readBits n s).srcPos ∧
      (readBits n s).srcPos ≤ s.srcPos + (n - s.bitcnt.toNat + 7) / 8) := by
  have hfr := refill_frame n maxPulls s
  have hpu := refill_pulls n maxPulls s hn
  unfold readBits
  cases hr : refill n maxPulls s with
  | filled t =>
    rw [hr] at hfr hpu
    simp only at hfr hpu
    obtain ⟨h1, h2, h3, h4⟩ := hpu
    have hge : n ≤ t.bitcnt.toNat := h3 (by simp [maxPulls]; omega)
    refine .inl ⟨valueOf t.bitbuf n, rfl, valueOf_lt _ hn, ?_, ?_, ?_, ?_, h1, h2⟩
    · show failedAfter t.failed _ = _
      rw [failedAfter_ok, hfr]
    · show t.consumed + n = _
      rw [hfr]
    · show t.freeCtr = _
      rw [hfr]
    · show (t.bitcnt - _).toNat + n + _ = _ + 8 * t.srcPos
      rw [toNat_bitcnt_sub hge]; omega
  | ended t =>
    rw [hr] at hfr hpu
    simp only at hfr hpu
    obtain ⟨h1, h2, h3⟩ := hpu
    refine .inr ⟨rfl, failedAfter_endOfInput _, ?_, ?_, h3, h1, h2⟩
    · show t.consumed = _
      rw [hfr]
    · by_contra hc
      simp [refill, maxPulls, hc] at hr

end Sys2Proof.Machine
end

