-- ==== Sys2Proof/Laws/Exec.lean ====
section
/-!
SUPPORT. The inversion lemmas: everything `exec` and `step` can do, each said once.
-/

namespace Sys2Proof.Machine

theorem countOperand_le {n : BitVec 5} (h : Instr.wellFormed (.read n) = true) :
    countOperand n ≤ 16 := by
  exact of_decide_eq_true h

/-- `READ` past the check on its word, on a reader that has not failed and whose source answers. -/
theorem exec_read_ready {n : BitVec 5} {s : State} (hn : Instr.wellFormed (.read n) = true)
    (hf : s.failed = false) (hr : s.SourceReady n) :
    exec (.read n) s = .next (readBits (countOperand n) s) := by
  have h1 : ¬ Config.nMax < countOperand n := Nat.not_lt.mpr (countOperand_le hn)
  simp only [State.SourceReady] at hr
  simp [exec, execRead, h1, hf, hr]

/-- `READ` whose source is silent (20_memory.md R44). -/
theorem exec_read_silent {n : BitVec 5} {s : State} (hn : Instr.wellFormed (.read n) = true)
    (hf : s.failed = false) (hr : s.sourceSilent (countOperand n) = true) :
    exec (.read n) s = .next (s.hold (.read n)) := by
  have h1 : ¬ Config.nMax < countOperand n := Nat.not_lt.mpr (countOperand_le hn)
  simp [exec, execRead, h1, hf, hr]

/-- `READ` with a count above 16 is a reserved word (30_encoding.md R67). -/
theorem exec_read_reserved {n : BitVec 5} {s : State} (hn : Instr.wellFormed (.read n) = false) :
    exec (.read n) s = .next s.raiseBadRequest := by
  have h1 : Config.nMax < countOperand n := by
    simpa [Instr.wellFormed, countOperand] using hn
  simp [exec, execRead, h1]

/-- Everything `exec` can do: five next states, and nothing else. -/
theorem exec_cases (i : Instr) (s : State) :
    ((i.wellFormed = false ∨ i = .align ∧ s.alignPresent = false) ∧
      exec i s = .next s.raiseBadRequest) ∨
    (s.failed = true ∧ i.wellFormed = true ∧ (i = .align → s.alignPresent = true) ∧
      exec i s = .next (s.respond .endOfInput)) ∨
    (∃ n, i = .read n ∧ Instr.wellFormed (.read n) = true ∧ s.failed = false ∧
      s.sourceSilent (countOperand n) = true ∧ exec i s = .next (s.hold i)) ∨
    (∃ n, i = .read n ∧ Instr.wellFormed (.read n) = true ∧ s.failed = false ∧
      s.SourceReady n ∧ exec i s = .next (readBits (countOperand n) s)) ∨
    (i = .align ∧ s.alignPresent = true ∧ s.failed = false ∧
      exec i s = .next (s.discardBits.respond (.ok 0))) := by
  cases i with
  | read n =>
    cases hn : Instr.wellFormed (.read n) with
    | false => exact .inl ⟨.inl rfl, exec_read_reserved hn⟩
    | true =>
      have h1 : ¬ Config.nMax < countOperand n := Nat.not_lt.mpr (countOperand_le hn)
      cases hf : s.failed with
      | true => exact .inr (.inl ⟨rfl, rfl, by simp, by simp [exec, execRead, h1, hf]⟩)
      | false =>
        cases hr : s.sourceSilent (countOperand n) with
        | true => exact .inr (.inr (.inl ⟨n, rfl, hn, rfl, hr, exec_read_silent hn hf hr⟩))
        | false => exact .inr (.inr (.inr (.inl ⟨n, rfl, hn, rfl, hr, exec_read_ready hn hf hr⟩)))
  | align =>
    cases hp : s.alignPresent with
    | false => exact .inl ⟨.inr ⟨rfl, rfl⟩, by simp [exec, execAlign, hp]⟩
    | true =>
      cases hf : s.failed with
      | true => exact .inr (.inl ⟨rfl, rfl, by simp, by simp [exec, execAlign, hp, hf]⟩)
      | false => exact .inr (.inr (.inr (.inr ⟨rfl, rfl, rfl, by simp [exec, execAlign, hp, hf]⟩)))

/-- What no command touches (10_state.md R29; 20_memory.md R43, R52): the source's bytes, how the
hardware is built, the client's side. -/
theorem exec_frame {i : Instr} {s t : State} (h : exec i s = .next t) :
    t.src = s.src ∧ t.alignPresent = s.alignPresent ∧ t.env = s.env ∧ t.taken = s.taken := by
  rcases exec_cases i s with ⟨-, he⟩ | ⟨-, -, -, he⟩ | ⟨n, -, -, -, -, he⟩ | ⟨n, -, -, -, -, he⟩ |
    ⟨-, -, -, he⟩ <;> rw [he] at h <;> cases h
  · exact ⟨rfl, rfl, rfl, rfl⟩
  · exact ⟨rfl, rfl, rfl, rfl⟩
  · exact ⟨rfl, rfl, rfl, rfl⟩
  · rw [readBits_frame]; exact ⟨rfl, rfl, rfl, rfl⟩
  · exact ⟨rfl, rfl, rfl, rfl⟩

/-- A command either is answered, and then nothing is in flight, or is held in flight. -/
theorem exec_answers_or_holds {i : Instr} {s t : State} (h : exec i s = .next t) :
    (t.rsp.isSome = true ∧ t.inFlight = none) ∨
    (t = s.hold i ∧ s.failed = false ∧ ∃ n, i = .read n ∧ Instr.wellFormed (.read n) = true ∧
      s.sourceSilent (countOperand n) = true) := by
  rcases exec_cases i s with ⟨-, he⟩ | ⟨-, -, -, he⟩ | ⟨n, hi, hw, hf, hs, he⟩ |
    ⟨n, -, hw, -, -, he⟩ | ⟨-, -, -, he⟩ <;> rw [he] at h <;> cases h
  · exact .inl ⟨rfl, rfl⟩
  · exact .inl ⟨rfl, rfl⟩
  · exact .inr ⟨rfl, hf, n, hi, hw, hs⟩
  · refine .inl ⟨?_, by rw [readBits_frame]⟩
    rcases readBits_cases (countOperand_le hw) s with ⟨v, hv, -⟩ | ⟨hv, -⟩ <;> simp [hv]
  · exact .inl ⟨rfl, rfl⟩

/-- What `accept` can do: run the command the decoder gives, or refuse the word as reserved (60
R141). -/
theorem accept_cases (w : Byte) (s : State) :
    (∃ i, decode s.alignPresent w = .command i ∧ accept w s = exec i s) ∨
    (∃ why, decode s.alignPresent w = .reserved why ∧ accept w s = .next s.raiseBadRequest) := by
  cases hd : decode s.alignPresent w with
  | command i => exact .inl ⟨i, rfl, by simp [accept, hd]⟩
  | reserved why => exact .inr ⟨why, rfl, by simp [accept, hd]⟩

/-- A state is itself with its own script. -/
theorem State.with_env_self {s : State} {e : List Event} (h : s.env = e) : { s with env := e } = s := by
  subst h; rfl

/-- Everything a step can do (30_encoding.md R60, R61; 70_reset_and_hazards.md R160, R170): a reset, a
response taken, a word accepted, or no new transfer. -/
theorem step_cases (s : State) :
    (∃ src ds rest, s.env = .rst src ds :: rest ∧
      step s = .next (State.restart src ds { s with env := rest })) ∨
    (∃ r rest, s.env = .take :: rest ∧ s.rsp = some r ∧
      step s = .next (State.takeResponse r { s with env := rest })) ∨
    (∃ w rest, s.env = .cmd w :: rest ∧ s.cmdReady = true ∧
      step s = accept w { s with env := rest }) ∨
    (∃ rest, (s.env = rest ∨ s.env = .idle :: rest) ∧
      (∀ src ds more, s.env ≠ .rst src ds :: more) ∧
      (∀ w more, s.env = .cmd w :: more → s.cmdReady = false) ∧
      (∀ more, s.env = .take :: more → s.rsp = none) ∧
      step s = continueInFlight { s with env := rest }) := by
  cases he : s.env with
  | nil => exact .inr (.inr (.inr ⟨[], .inl rfl, by simp, by simp, by simp, by rw [State.with_env_self he]; simp [step, portStep, he]⟩))
  | cons e rest =>
    cases e with
    | rst src ds => exact .inl ⟨src, ds, rest, rfl, by simp [step, portStep, he]⟩
    | idle => exact .inr (.inr (.inr ⟨rest, .inr rfl, by simp, by simp, by simp, by simp [step, portStep, he]⟩))
    | cmd w =>
      cases hr : s.cmdReady with
      | true => exact .inr (.inr (.inl ⟨w, rest, rfl, rfl, by simp [step, portStep, he, hr]⟩))
      | false =>
        refine .inr (.inr (.inr ⟨.cmd w :: rest, .inl rfl, by simp, by simp, by simp, ?_⟩))
        rw [State.with_env_self he]; simp [step, portStep, he, hr]
    | take =>
      rcases Option.eq_none_or_eq_some s.rsp with hr | ⟨r, hr⟩
      · refine .inr (.inr (.inr ⟨.take :: rest, .inl rfl, by simp, by simp, fun _ _ => hr, ?_⟩))
        rw [State.with_env_self he]; simp [step, portStep, he, hr]
      · exact .inr (.inl ⟨r, rest, rfl, hr, by simp [step, portStep, he, hr]⟩)

/-- Everything a step that is not a reset can do, down to the command it runs: a response taken, a reserved
word answered, a command offered or in flight run by `exec`, or nothing. -/
theorem step_cases_of_not_reset {s t : State} (hn : ∀ src ds rest, s.env ≠ .rst src ds :: rest)
    (hs : step s = .next t) :
    (∃ r rest, s.env = .take :: rest ∧ s.rsp = some r ∧
      t = State.takeResponse r { s with env := rest }) ∨
    (∃ w rest, s.env = .cmd w :: rest ∧ s.cmdReady = true ∧
      (∃ why, decode s.alignPresent w = .reserved why) ∧
      t = State.raiseBadRequest { s with env := rest }) ∨
    (∃ i rest, ((∃ w, s.env = .cmd w :: rest ∧ s.cmdReady = true ∧
        decode s.alignPresent w = .command i) ∨
        (s.inFlight = some i ∧ (s.env = rest ∨ s.env = .idle :: rest))) ∧
      exec i { s with env := rest } = .next t) ∨
    (∃ rest, s.inFlight = none ∧ (s.env = rest ∨ s.env = .idle :: rest) ∧
      t = { s with env := rest }) := by
  rcases step_cases s with ⟨src, ds, rest, he, h'⟩ | ⟨r, rest, he, hr, h'⟩ | ⟨w, rest, he, hr, h'⟩ |
    ⟨rest, hrest, -, -, -, h'⟩
  · exact absurd he (hn src ds rest)
  · rw [h'] at hs; cases hs; exact .inl ⟨r, rest, he, hr, rfl⟩
  · rw [h'] at hs
    rcases accept_cases w { s with env := rest } with ⟨i, hd, ha⟩ | ⟨why, hd, ha⟩ <;> rw [ha] at hs
    · exact .inr (.inr (.inl ⟨i, rest, .inl ⟨w, he, hr, hd⟩, hs⟩))
    · cases hs; exact .inr (.inl ⟨w, rest, he, hr, ⟨why, hd⟩, rfl⟩)
  · rw [h', continueInFlight] at hs
    split at hs
    · rename_i i hi; exact .inr (.inr (.inl ⟨i, rest, .inr ⟨hi, hrest⟩, hs⟩))
    · rename_i hi; cases hs; exact .inr (.inr (.inr ⟨rest, hi, hrest, rfl⟩))

/-- A run of `k + 1` steps is one step and a run of `k`. -/
theorem run_succ_of_step {s t : State} (k : Nat) (h : step s = .next t) :
    core.run (k + 1) s = core.run k t := by
  have hc : core.step s = .next t := h
  simp only [Host.Core.run, hc]

end Sys2Proof.Machine
end

