-- ==== Sys2Proof/Laws/Client.lean ====
section
/-!
SUPPORT. How a client's command is answered (Machine/Client.lean): waiting for a source that answers one
day changes nothing but the wait, so `issue` of a `READ` is `readBits`.
-/

namespace Sys2Proof.Machine

@[simp] theorem Reply.andThen_done {α β : Type} (a : α) (s : State) (f : α → State → Reply β) :
    (Reply.done a s).andThen f = f a s := rfl

@[simp] theorem Reply.andThen_fail {α β : Type} (e : ClientError) (s : State)
    (f : α → State → Reply β) : (Reply.fail e s).andThen f = .fail e s := rfl

@[simp] theorem Reply.andThen_stuck {α β : Type} (s : State) (f : α → State → Reply β) :
    (Reply.stuck s).andThen f = .stuck s := rfl

@[simp] theorem Reply.andThen_outOfFuel {α β : Type} (s : State) (f : α → State → Reply β) :
    (Reply.outOfFuel s).andThen f = .outOfFuel s := rfl

/-- A sequence succeeds only if both its parts do. -/
theorem Reply.andThen_eq_done {α β : Type} {r : Reply α} {f : α → State → Reply β} {b : β} {t : State}
    (h : r.andThen f = .done b t) : ∃ a s, r = .done a s ∧ f a s = .done b t := by
  cases r <;> simp at h
  exact ⟨_, _, rfl, h⟩

/-- The number of pulls a refill makes, on any state, seen in the delays it uses up. -/
theorem refill_delays (n : Nat) (hn : n ≤ 16) : ∀ (fuel : Nat) (s : State),
    n ≤ s.bitcnt.toNat + 8 * fuel →
    match refill n fuel s with
    | .filled t => t.delays = s.delays.drop (s.pullsMade n)
    | .ended t => t.delays = s.delays.drop (s.pullsMade n)
  | 0, s, hf => by
    have hz : s.pullsMade n = 0 := by simp only [State.pullsMade]; omega
    simp [refill, hz]
  | fuel + 1, s, hf => by
    by_cases hlt : s.bitcnt.toNat < n
    · rcases Nat.lt_or_ge s.srcPos s.src.length with hs | hs
      · have hcnt : (s.advanceSource.pushByte (s.src[s.srcPos]'hs)).bitcnt.toNat =
            s.bitcnt.toNat + 8 := by
          have hc : s.bitcnt.toNat < 16 := by omega
          simpa using toNat_bitcnt_add_eight hc
        have ih := refill_delays n hn fuel (s.advanceSource.pushByte (s.src[s.srcPos]'hs))
          (by rw [hcnt]; omega)
        have hk : s.pullsMade n =
            (s.advanceSource.pushByte (s.src[s.srcPos]'hs)).pullsMade n + 1 := by
          simp only [State.pullsMade, hcnt, State.pushByte_src, State.pushByte_srcPos,
            State.advanceSource_src, State.advanceSource_srcPos]
          omega
        simp only [refill, hlt, if_true, pullByte_of_lt hs]
        rw [hk]
        cases hr : refill n fuel (s.advanceSource.pushByte (s.src[s.srcPos]'hs)) <;>
          rw [hr] at ih <;> simp only [State.pushByte_delays, State.advanceSource_delays] at ih ⊢ <;>
          rw [ih] <;> simp [List.drop_tail]
      · have hk : s.pullsMade n = 1 := by simp only [State.pullsMade]; omega
        simp [refill, hlt, pullByte_of_ge hs, hk]
    · have hz : s.pullsMade n = 0 := by simp only [State.pullsMade]; omega
      simp [refill, hlt, hz]

/-- A refill looks at neither the delays nor the ports. -/
theorem refill_congr (n : Nat) (hn : n ≤ 16) : ∀ (fuel : Nat) (s : State) (ds : List Delay)
    (f : Option Instr), n ≤ s.bitcnt.toNat + 8 * fuel →
    refill n fuel { s with delays := ds, inFlight := f } =
      match refill n fuel s with
      | .filled t => .filled { t with delays := ds.drop (s.pullsMade n), inFlight := f }
      | .ended t => .ended { t with delays := ds.drop (s.pullsMade n), inFlight := f }
  | 0, s, ds, f, hf => by
    have hz : s.pullsMade n = 0 := by simp only [State.pullsMade]; omega
    simp [refill, hz]
  | fuel + 1, s, ds, f, hf => by
    by_cases hlt : s.bitcnt.toNat < n
    · rcases Nat.lt_or_ge s.srcPos s.src.length with hs | hs
      · have hcnt : (s.advanceSource.pushByte (s.src[s.srcPos]'hs)).bitcnt.toNat =
            s.bitcnt.toNat + 8 := by
          have hc : s.bitcnt.toNat < 16 := by omega
          simpa using toNat_bitcnt_add_eight hc
        have ih := refill_congr n hn fuel (s.advanceSource.pushByte (s.src[s.srcPos]'hs)) ds.tail f
          (by rw [hcnt]; omega)
        have hk : s.pullsMade n =
            (s.advanceSource.pushByte (s.src[s.srcPos]'hs)).pullsMade n + 1 := by
          simp only [State.pullsMade, hcnt, State.pushByte_src, State.pushByte_srcPos,
            State.advanceSource_src, State.advanceSource_srcPos]
          omega
        simp only [refill, hlt, if_true, pullByte_of_lt hs]
        rw [pullByte_of_lt (s := { s with delays := ds, inFlight := f }) hs]
        simp only
        refine Eq.trans ih ?_
        rw [hk]
        cases refill n fuel (s.advanceSource.pushByte (s.src[s.srcPos]'hs)) <;>
          simp [List.drop_tail]
      · have hk : s.pullsMade n = 1 := by simp only [State.pullsMade]; omega
        simp only [refill, hlt, if_true, pullByte_of_ge hs]
        rw [pullByte_of_ge (s := { s with delays := ds, inFlight := f }) hs]
        simp [State.meetEnd, hk]
    · have hz : s.pullsMade n = 0 := by simp only [State.pullsMade]; omega
      simp [refill, hlt, hz]

/-- Only the delays a read uses up differ when the delays and the port differed before it. -/
theorem readBits_congr {n : Nat} (hn : n ≤ 16) (s : State) (ds : List Delay) (f : Option Instr) :
    readBits n { s with delays := ds, inFlight := f } =
      { readBits n s with delays := ds.drop (s.pullsMade n) } := by
  unfold readBits
  rw [refill_congr n hn maxPulls s ds f (by simp [maxPulls]; omega)]
  cases refill n maxPulls s <;> rfl

theorem readBits_delays {n : Nat} (hn : n ≤ 16) (s : State) :
    (readBits n s).delays = s.delays.drop (s.pullsMade n) := by
  have h := refill_delays n hn maxPulls s (by simp [maxPulls]; omega)
  unfold readBits
  cases hr : refill n maxPulls s <;> rw [hr] at h <;> exact h

theorem pullsMade_le {n : Nat} (hn : n ≤ 16) (s : State) : s.pullsMade n ≤ maxPulls := by
  simp only [State.pullsMade, maxPulls]; omega

/-- One step of waiting, for a source that answers one day. -/
theorem tickDelays_spec : ∀ (ds : List Delay) (m : Nat),
    (ds.take m).any (· != .after 0) = true → Delay.never ∉ ds.take m →
    (tickDelays ds).drop m = ds.drop m ∧ Delay.never ∉ (tickDelays ds).take m ∧
    ∀ M, m ≤ M → (((tickDelays ds).take M).map Delay.length).sum + 1 =
      ((ds.take M).map Delay.length).sum
  | [], m, h, _ => by simp at h
  | d :: ds, 0, h, _ => by simp at h
  | .never :: ds, m + 1, _, hn => by simp at hn
  | .after 0 :: ds, m + 1, h, hn => by
    obtain ⟨h1, h2, h3⟩ := tickDelays_spec ds m (by simpa using h) (by simpa using hn)
    refine ⟨by simpa [tickDelays] using h1, by simpa [tickDelays] using h2, fun M hM => ?_⟩
    obtain ⟨M', rfl⟩ : ∃ M', M = M' + 1 := ⟨M - 1, by omega⟩
    have := h3 M' (by omega)
    simp only [tickDelays, List.take_succ_cons, List.map_cons, List.sum_cons, Delay.length] at this ⊢
    omega
  | .after (k + 1) :: ds, m + 1, _, hn => by
    refine ⟨by simp [tickDelays], by simpa [tickDelays] using hn, fun M hM => ?_⟩
    obtain ⟨M', rfl⟩ : ∃ M', M = M' + 1 := ⟨M - 1, by omega⟩
    simp only [tickDelays, List.take_succ_cons, List.map_cons, List.sum_cons, Delay.length]
    omega

/-- Waiting ends: a `READ` whose pulls are all answered one day is answered, and the wait has changed
nothing (20_memory.md R44; 70_reset_and_hazards.md R170). -/
theorem await_read {n : BitVec 5} (hw : Instr.wellFormed (.read n) = true) {s : State}
    (hf : s.failed = false) {r : Response} (hr : (readBits (countOperand n) s).rsp = some r) :
    ∀ (k : Nat) (ds : List Delay) (f : Option Instr),
      Delay.never ∉ ds.take (s.pullsMade (countOperand n)) →
      ((ds.take maxPulls).map Delay.length).sum < k →
      await (.read n) k { s with delays := ds, inFlight := f } =
        .done r (State.takeResponse r { readBits (countOperand n) s with
          delays := ds.drop (s.pullsMade (countOperand n)) })
  | 0, ds, f, _, hk => by omega
  | k + 1, ds, f, hn, hk => by
    have hle := countOperand_le hw
    cases hs : State.sourceSilent { s with delays := ds, inFlight := f } (countOperand n) with
    | true =>
      obtain ⟨h1, h2, h3⟩ := tickDelays_spec ds _ hs hn
      have hex := exec_read_silent (s := { s with delays := ds, inFlight := f }) hw hf hs
      have ih := await_read hw hf hr k (tickDelays ds) (some (.read n)) h2
        (by have := h3 maxPulls (pullsMade_le hle s); omega)
      have h1' : (tickDelays ds).drop (s.pullsMade (countOperand n)) =
          ds.drop (s.pullsMade (countOperand n)) := h1
      rw [h1'] at ih
      simp only [await, hex, State.hold]
      exact ih
    | false =>
      have hex := exec_read_ready (s := { s with delays := ds, inFlight := f }) hw hf hs
      have hfl : (readBits (countOperand n) s).inFlight = none := by rw [readBits_frame]
      have hc := readBits_congr hle s ds f
      simp only [await, hex]
      rw [hc]
      simp only [hfl, hr]

/-- `issue` of a `READ`, for a source that answers one day: `readBits`, with its response taken. -/
theorem issue_read {n : BitVec 5} (hw : Instr.wellFormed (.read n) = true) {s : State}
    (hf : s.failed = false) {r : Response} (hr : (readBits (countOperand n) s).rsp = some r)
    (hn : Delay.never ∉ s.delays.take (s.pullsMade (countOperand n))) :
    issue (.read n) s = .done r ((readBits (countOperand n) s).takeResponse r) := by
  have h := await_read hw hf hr s.patience s.delays s.inFlight hn (by simp [State.patience])
  rw [← readBits_delays (countOperand_le hw)] at h
  exact h

theorem countOperand_ofNat {n : Nat} (hn : n ≤ 16) : countOperand (BitVec.ofNat 5 n) = n := by
  simp only [countOperand, BitVec.toNat_ofNat]; omega

theorem wellFormed_read_ofNat {n : Nat} (hn : n ≤ 16) :
    Instr.wellFormed (.read (BitVec.ofNat 5 n)) = true := by
  have h := countOperand_ofNat hn
  simp only [countOperand] at h
  simp [Instr.wellFormed, Config.nMax, h, hn]

/-- A failed reader answers a client at once (60_exceptions.md R143). -/
theorem issue_read_failed {n : BitVec 5} (hw : Instr.wellFormed (.read n) = true) {s : State}
    (hf : s.failed = true) :
    issue (.read n) s = .done .endOfInput ((s.respond .endOfInput).takeResponse .endOfInput) := by
  have h1 : ¬ Config.nMax < countOperand n := Nat.not_lt.mpr (countOperand_le hw)
  have hex : exec (.read n) s = .next (s.respond .endOfInput) := by simp [exec, execRead, h1, hf]
  simp [issue, State.patience, await, hex]

end Sys2Proof.Machine
end

