-- ==== Sys2Proof/Laws/PerInstr.lean ====
section
/-!
SUPPORT. Statements for every command as syntax, one lemma a constructor: the `op` field of a command's word
is the one its row of the command map gives (30_encoding.md R64, R66).
-/

namespace Sys2Proof.Laws.OpField

/-- The word's `op` field is the command's, and its `n` field is the count it was written with. -/
def Statement : Instr → Prop
  | .read n => opField (encode (.read n)) = 0b000 ∧ countField (encode (.read n)) = n
  | .align => opField (encode .align) = 0b001 ∧ countField (encode .align) = 0

theorem read : ∀ n : BitVec 5, Statement (.read n) := by
  unfold Statement
  decide

theorem align : Statement .align := by
  unfold Statement
  decide

end Sys2Proof.Laws.OpField
end

