-- ==== Sys2Proof/Tests/Slice0.lean ====
section
/-!
SUPPORT. The model's own tests: the check of ill-formed terms, words written out from 30_encoding.md R64 to
R67, single steps from the tables of 95_test_vectors.md, and for every statement with hypotheses a state
that meets them (`witness_…`).
-/

namespace Sys2Proof.Tests

open Sys2Proof.Machine

/-! ## Helpers -/

/-- A reader just reset, with this source attached. -/
def fresh (src : List Byte) (ds : List Delay) (ap : Bool) (env : List Event) : State :=
  { State.reset with src := src, delays := ds, alignPresent := ap, env := env }

/-- The source of 95_test_vectors.md's first program after `READ 3`: 5 bits of `0xA5` are buffered. -/
def partway (ds : List Delay) (ap : Bool) (env : List Event) : State :=
  { fresh [0xA5, 0x3C, 0xFF, 0x01] ds ap env with
    bitbuf := 0x14, bitcnt := 5, consumed := 3, srcPos := 1 }

/-- A reader that has failed. -/
def spent (ap : Bool) (env : List Event) : State :=
  { fresh [0xA5] [] ap env with failed := true, srcPos := 1, consumed := 3 }

theorem fresh_inv (src : List Byte) (ds : List Delay) (ap : Bool) (env : List Event) :
    (fresh src ds ap env).Inv where
  srcPos_le := Nat.zero_le _
  bitcnt_le _ := Nat.zero_le _
  position _ := rfl
  buffered _ j hj := absurd hj (Nat.not_lt_zero j)
  cleared _ k _ := by simp [fresh, State.reset]
  delivered_le := Nat.le_refl _
  discarded_zero _ := rfl
  one_transaction := .inl rfl
  in_flight_read _ h := by cases h

theorem partway_inv (ds : List Delay) (ap : Bool) (env : List Event) : (partway ds ap env).Inv where
  srcPos_le := show 1 ≤ 4 by decide
  bitcnt_le _ := show 5 ≤ 7 by decide
  position _ := rfl
  buffered _ := show ∀ j, j < 5 →
    (0x14#32).getLsbD j = sbit [0xA5, 0x3C, 0xFF, 0x01] (3 + j) by decide
  cleared _ k hk := by
    change (0x14#32).getLsbD k = false
    change 5 ≤ k at hk
    rcases Nat.lt_or_ge k 32 with h | h
    · interval_cases k <;> rfl
    · exact BitVec.getLsbD_of_ge _ _ h
  delivered_le := show 3 ≤ 8 by decide
  discarded_zero _ := rfl
  one_transaction := .inl rfl
  in_flight_read _ h := by cases h

theorem spent_inv (ap : Bool) (env : List Event) : (spent ap env).Inv where
  srcPos_le := Nat.le_refl _
  bitcnt_le h := by cases h
  position h := by cases h
  buffered h := by cases h
  cleared h := by cases h
  delivered_le := show 3 ≤ 8 by decide
  discarded_zero _ := rfl
  one_transaction := .inl rfl
  in_flight_read _ h := by cases h

theorem partway_responsive (ap : Bool) (env : List Event) : (partway [] ap env).SourceResponsive :=
  List.not_mem_nil

theorem fresh_responsive (src : List Byte) (ap : Bool) (env : List Event) :
    (fresh src [] ap env).SourceResponsive :=
  List.not_mem_nil

/-- A script that begins with a word offered does not begin with a reset, be there one later. -/
theorem notReset_cmd (s : State) (w : Byte) (more : List Event) (h : s.env = .cmd w :: more) :
    ∀ src ds rest, s.env ≠ .rst src ds :: rest := by
  intro src ds rest he
  simp [h] at he

/-- A script of one offered word holds no reset. -/
theorem noReset_cmd (s : State) (w : Byte) (h : s.env = [.cmd w]) : s.NoReset := by
  intro src ds hm
  simp [h] at hm

theorem noReset_nil (s : State) (h : s.env = []) : s.NoReset := by
  intro src ds hm
  simp [h] at hm

/-! ## Well-formed terms (30_encoding.md R66; 00_scope.md R7: `n` is 0 to 16) -/

theorem test_wellFormed_read_17_refused : Instr.wellFormed (.read 17) = false := by decide
theorem test_wellFormed_read_31_refused : Instr.wellFormed (.read 31) = false := by decide
theorem test_wellFormed_read_16 : Instr.wellFormed (.read 16) = true := by decide
theorem test_wellFormed_align : Instr.wellFormed .align = true := by decide

/-! ## Words, written out bit by bit from 30_encoding.md R64 to R67 -/

theorem test_decode_read_5 : decode false 0b00000101#8 = .command (.read 5) := by decide
theorem test_decode_read_16 : decode false 0b00010000#8 = .command (.read 16) := by decide
theorem test_decode_align : decode true 0b00100000#8 = .command .align := by decide
theorem test_decode_align_absent : decode false 0b00100000#8 = .reserved .alignAbsent := by decide
theorem test_decode_read_17 : decode true 0b00010001#8 = .reserved .readCountAbove16 := by decide
theorem test_decode_align_1 : decode true 0b00100001#8 = .reserved .alignCountNotZero := by decide
theorem test_decode_op_010 : decode true 0b01000000#8 = .reserved .unknownOp := by decide
theorem test_encode_read_13 : encode (.read 13) = 0b00001101#8 := by decide
theorem test_encode_align : encode .align = 0b00100000#8 := by decide

/-! ## Single steps (95_test_vectors.md §2.1 to §2.4) -/

/-- `READ 3` on `A5 3C FF 01` is 5, and leaves `0x14` and 5 bits. -/
theorem test_read_3 : exec (.read 3) (fresh [0xA5, 0x3C, 0xFF, 0x01] [] false []) =
    .next { partway [] false [] with rsp := some (.ok 5) } := rfl

/-- `READ 16` with 6 bits buffered takes two pulls (row 4 of the first program). -/
theorem test_read_16_two_pulls : exec (.read 16) { partway [] false [] with
      bitbuf := 0x0F, bitcnt := 6, consumed := 10, srcPos := 2 } =
    .next { partway [] false [] with
      bitbuf := 0, bitcnt := 6, consumed := 26, srcPos := 4, rsp := some (.ok 0x7FCF) } := rfl

/-- `READ 3; ALIGN; READ 16` on `01 01 00`: the `ALIGN` drops 5 bits. -/
theorem test_align : exec .align { fresh [0x01, 0x01, 0x00] [] true [] with
      bitcnt := 5, consumed := 3, srcPos := 1 } =
    .next { fresh [0x01, 0x01, 0x00] [] true [] with
      consumed := 3, discarded := 5, srcPos := 1, rsp := some (.ok 0) } := rfl

theorem test_align_when_failed : exec .align (spent true []) =
    .next { spent true [] with rsp := some .endOfInput } := rfl

/-- The reserved word `0x11` on an empty source. -/
theorem test_reserved_word_step : step (fresh [] [] false [.cmd 0x11]) =
    .next { fresh [] [] false [] with failed := true, rsp := some .badRequest } := rfl

/-- The word placed by `withFetchWord` runs in the very next step. -/
theorem test_withFetchWord : step ((fresh [0x5A] [] false []).withFetchWord 8 0b00001000) =
    .next { fresh [0x5A] [] false [] with
      consumed := 8, srcPos := 1, rsp := some (.ok 0x5A) } := rfl

/-! ## The clients (95_test_vectors.md §3) -/

theorem test_table_symbols :
    buildTable [2, 1, 3, 3] =
      some { counts := [0, 1, 1, 2, 0, 0, 0, 0, 0, 0, 0, 0, 0, 0, 0, 0], symbols := [1, 0, 2, 3] } := by
  decide
theorem test_table_oversubscribed : buildTable [1, 1, 1] = none := by decide
theorem test_copy_overlaps :
    copyBack 1 4 [0x61] = [0x61, 0x61, 0x61, 0x61, 0x61] := by decide
theorem test_lengths_order :
    arrangeLengths [1, 2, 3, 4] = [4, 0, 0, 0, 0, 0, 0, 0, 0, 0, 0, 0, 0, 0, 0, 0, 1, 2, 3] := by decide
theorem test_assemble_read :
    assembleLine false ['R', 'E', 'A', 'D', ' ', '1', '3', ' ', ';', 'x'] = .word 0b00001101#8 := by decide
theorem test_assemble_align_absent : assembleLine false ['A', 'L', 'I', 'G', 'N'] = .invalid := by decide

/-! ## Witnesses: for every statement with hypotheses, a state and operands that meet them -/

/-! ### Reset and the state -/

theorem witness_RestartDropsEverythingInProgress :
    ∃ (s : State) (src : List Byte) (ds : List Delay) (rest : List Event),
      s.env = .rst src ds :: rest ∧ s.inFlight = some (.read 16) :=
  ⟨{ partway [.never] false [.rst [0x5A] [.after 1], .idle] with inFlight := some (.read 16) },
    [0x5A], [.after 1], [.idle], rfl, rfl⟩

theorem witness_EveryStepKeepsTheInvariant :
    ∃ s t : State, s.Inv ∧ step s = .next t ∧ t.srcPos ≠ s.srcPos :=
  ⟨partway [] false [.cmd 0x07], _, partway_inv _ _ _, rfl, by decide⟩

theorem witness_BufferHoldsTheUnconsumedTail :
    ∃ (src : List Byte) (ds : List Delay) (ap : Bool) (env : List Event) (k : Nat) (t : State),
      core.run k { State.reset with src := src, delays := ds, alignPresent := ap, env := env } =
        .next t ∧ t.failed = false ∧ t.alignPresent = false ∧ 0 < t.bitcnt.toNat :=
  ⟨[0xA5], [], false, [.cmd 0x01], 1, _, rfl, rfl, rfl, by decide⟩

theorem witness_StreamPositionNeverDecreases :
    (∃ s t : State, (∀ src ds rest, s.env ≠ .rst src ds :: rest) ∧ step s = .next t ∧
      s.streamPos < t.streamPos) ∧
    (∃ s : State, s.Inv ∧ s.failed = false) :=
  ⟨⟨partway [] false [.cmd 0x07, .rst [] []], _, notReset_cmd _ 0x07 _ rfl, rfl, by decide⟩,
    partway [] false [], partway_inv _ _ _, rfl⟩

theorem witness_SourceIsFixedAndReadForwards :
    ∃ s t : State, (∀ src ds rest, s.env ≠ .rst src ds :: rest) ∧ step s = .next t ∧
      s.srcPos < t.srcPos :=
  ⟨partway [] false [.cmd 0x07, .rst [] []], _, notReset_cmd _ 0x07 _ rfl, rfl, by decide⟩

/-! ### The byte source -/

theorem witness_PullGivesTheNextByteOrEnd :
    (∃ s : State, s.srcPos + 1 = s.src.length) ∧ (∃ s : State, s.src.length = s.srcPos) :=
  ⟨⟨{ partway [] false [] with srcPos := 3 }, rfl⟩, fresh [] [] false [], rfl⟩

theorem witness_SilentSourceHoldsTheCommand :
    (∃ (n : BitVec 5) (s : State), Instr.wellFormed (.read n) = true ∧ s.failed = false ∧
      s.sourceSilent (countOperand n) = true) ∧
    (∃ (n : BitVec 5) (k : Nat) (s : State), Instr.wellFormed (.read n) = true ∧ s.failed = false ∧
      s.inFlight = some (.read n) ∧ s.rsp = none ∧ s.NoReset ∧ k < s.pullsMade (countOperand n) ∧
      s.delays.take k = List.replicate k (.after 0) ∧ s.delays[k]? = some .never) :=
  ⟨⟨6, partway [.after 1] false [], rfl, rfl, by decide⟩,
    16, 1, { partway [.after 0, .never] false [.cmd 0x01] with inFlight := some (.read 16) },
    rfl, rfl, rfl, rfl, noReset_cmd _ 0x01 rfl, by decide, rfl, rfl⟩

theorem witness_ReadMakesAtMostTwoPulls :
    ∃ (n : BitVec 5) (s t : State), Instr.wellFormed (.read n) = true ∧ s.failed = false ∧
      s.SourceReady n ∧ exec (.read n) s = .next t ∧ s.pullsMade (countOperand n) = 2 :=
  ⟨16, partway [] false [], _, rfl, rfl, rfl, rfl, rfl⟩

theorem witness_SequentialReadsReturnSuccessiveFields :
    ∃ (widths : List Nat) (s : State), s.Inv ∧ s.failed = false ∧ s.SourceResponsive ∧
      (∀ n ∈ widths, n ≤ 16) ∧ s.streamPos + widths.sum = 8 * s.src.length :=
  ⟨[0, 13, 16], partway [] false [], partway_inv _ _ _, rfl, partway_responsive _ _, by decide, rfl⟩

theorem witness_InstancesShareNothing :
    ∃ (readers a b c : List State) (k l : Nat), k ≠ l ∧ stepAt k readers = .next a ∧
      stepAt l a = .next b ∧ stepAt l readers = .next c :=
  ⟨[partway [] false [.cmd 0x07], fresh [0x5A] [] true [.cmd 0x08]], _, _, _, 0, 1,
    by decide, rfl, rfl, rfl⟩

/-! ### The ports and the command word -/

theorem witness_StepRunsTheOfferedCommand :
    (∃ (s : State) (w : Byte) (rest : List Event) (i : Instr), s.env = .cmd w :: rest ∧
      s.cmdReady = true ∧ decode s.alignPresent w = .command i) ∧
    (∃ (s : State) (i : Instr), s.env = [] ∧ s.inFlight = some i) ∧
    (∃ (s : State) (w : Nat) (i : Instr), w < 256 ∧
      decode s.alignPresent (BitVec.ofNat 8 w) = .command i) :=
  ⟨⟨partway [] true [.cmd 0x20], 0x20, [], .align, rfl, rfl, rfl⟩,
    ⟨{ partway [] false [] with inFlight := some (.read 7) }, .read 7, rfl, rfl⟩,
    partway [] false [], 0x10, .read 16, by decide, rfl⟩

theorem witness_ResponsesCarryTheirStatus :
    (∃ s : State, s.rsp = some .endOfInput) ∧ (∃ s : State, s.rsp = some .badRequest) :=
  ⟨⟨{ spent false [] with rsp := some .endOfInput }, rfl⟩,
    { spent false [] with rsp := some .badRequest }, rfl⟩

theorem witness_OneResponseForEveryCommand :
    (∃ s t : State, s.Inv ∧ (∀ src ds rest, s.env ≠ .rst src ds :: rest) ∧ step s = .next t ∧
      t.rsp = some (.ok 0x14)) ∧
    (∃ (s t : State) (w : Byte) (rest : List Event), s.env = .cmd w :: rest ∧ s.cmdReady = false ∧
      step s = .next t) :=
  ⟨⟨partway [] false [.cmd 0x07, .rst [] []], _, partway_inv _ _ _, notReset_cmd _ 0x07 _ rfl, rfl,
      rfl⟩,
    { partway [] false [.cmd 0x07] with rsp := some (.ok 5) }, _, 0x07, [], rfl, rfl, rfl⟩

theorem witness_PullsOnlyForAReadThatLacksBits :
    ∃ s t : State, (∀ src ds rest, s.env ≠ .rst src ds :: rest) ∧ step s = .next t ∧
      t.srcPos ≠ s.srcPos :=
  ⟨partway [] false [.cmd 0x06, .rst [] []], _, notReset_cmd _ 0x06 _ rfl, rfl, by decide⟩

theorem witness_TakeHandsOverTheResponse :
    ∃ (s : State) (r : Response) (rest : List Event), s.env = .take :: rest ∧ s.rsp = some r :=
  ⟨{ partway [] false [.take, .cmd 0x07] with rsp := some (.ok 5) }, .ok 5, [.cmd 0x07], rfl, rfl⟩

theorem witness_DecodeAndEncodeAgree :
    (Instr.wellFormed (.read 16) = true ∧ Instr.wellFormed .align = true) ∧
    (∃ (ap : Bool) (w : Byte) (i : Instr), decode ap w = .command i ∧ i = .align) :=
  ⟨⟨rfl, rfl⟩, true, 0x20, .align, rfl, rfl⟩

/-! ### READ and ALIGN -/

/-- The widest field, and one that ends with the stream's last bit. -/
theorem witness_ReadReturnsTheStreamField :
    (∃ (n : BitVec 5) (s : State), s.Inv ∧ s.failed = false ∧ n.toNat = 16 ∧
      s.streamPos + n.toNat ≤ 8 * s.src.length ∧ s.SourceReady n) ∧
    (∃ (n : BitVec 5) (s : State), s.Inv ∧ s.failed = false ∧ n.toNat ≤ 16 ∧
      s.streamPos + n.toNat = 8 * s.src.length ∧ s.SourceReady n) :=
  ⟨⟨16, partway [] false [], partway_inv _ _ _, rfl, rfl, by decide, rfl⟩,
    8, fresh [0x5A] [] false [], fresh_inv _ _ _ _, rfl, by decide, rfl, rfl⟩

theorem witness_ReadZeroAlwaysAnswersZero :
    ∃ s : State, s.failed = false ∧ s.delays = [.never] :=
  ⟨partway [.never] false [], rfl, rfl⟩

theorem witness_ReadWithinTheBufferPullsNothing :
    ∃ (n : BitVec 5) (s : State), s.failed = false ∧ n.toNat ≤ 16 ∧ n.toNat = s.bitcnt.toNat :=
  ⟨5, partway [.never] false [], rfl, by decide, rfl⟩

theorem witness_ReadValueFitsItsWidth :
    ∃ (n : BitVec 5) (s t : State) (v : Half), Instr.wellFormed (.read n) = true ∧
      s.failed = false ∧ s.SourceReady n ∧ exec (.read n) s = .next t ∧ t.rsp = some (.ok v) ∧
      v.toNat = 2 ^ n.toNat - 1 :=
  ⟨16, fresh [0xFF, 0xFF] [] false [], _, 0xFFFF, rfl, rfl, rfl, rfl, rfl, rfl⟩

theorem witness_AlignDiscardsTheBuffer :
    (∃ s : State, s.alignPresent = true ∧ s.failed = false) ∧
    (∃ s : State, s.alignPresent = true ∧ s.failed = true) :=
  ⟨⟨partway [] true [], rfl, rfl⟩, spent true [], rfl, rfl⟩

theorem witness_ReadAfterAlignStartsOnAByte :
    ∃ (n : BitVec 5) (s : State) (b0 b1 : Byte), s.Inv ∧ s.alignPresent = true ∧ s.failed = false ∧
      n.toNat ≤ 16 ∧ 8 * s.srcPos + n.toNat ≤ 8 * s.src.length ∧ s.SourceResponsive ∧ n = 16 ∧
      s.src[s.srcPos]? = some b0 ∧ s.src[s.srcPos + 1]? = some b1 :=
  ⟨16, partway [] true [], 0x3C, 0xFF, partway_inv _ _ _, rfl, rfl, by decide, by decide,
    partway_responsive _ _, rfl, rfl, rfl⟩

theorem witness_TwoReadsConcatenate :
    (∃ (a b : Nat) (s : State) (x y : Nat) (t u : State), s.Inv ∧ s.failed = false ∧ a + b = 16 ∧
      s.SourceResponsive ∧ readField a s = .done x t ∧ readField b t = .done y u) ∧
    (∃ (s t : State), s.Inv ∧ s.failed = false ∧ s.SourceResponsive ∧
      readField (7 + 9) s = .fail .endOfInput t) :=
  ⟨⟨7, 9, partway [] false [], _, _, _, _, partway_inv _ _ _, rfl, rfl, partway_responsive _ _,
      rfl, rfl⟩,
    fresh [0xA5] [] false [], _, fresh_inv _ _ _ _, rfl, fresh_responsive _ _ _, rfl⟩

theorem witness_PullsAreLazy :
    (∃ (s t : State) (v : Half), s.Inv ∧ s.failed = false ∧ exec (.read 6) s = .next t ∧
      t.inFlight = none ∧ t.rsp = some (.ok v)) ∧
    (∃ (s t : State) (v : Half), s.Inv ∧ s.failed = false ∧ exec .align s = .next t ∧
      t.inFlight = none ∧ t.rsp = some (.ok v)) :=
  ⟨⟨partway [] false [], _, _, partway_inv _ _ _, rfl, rfl, rfl, rfl⟩,
    partway [] true [], _, _, partway_inv _ _ _, rfl, rfl, rfl, rfl⟩

/-- Both sides of the equivalence: one bit too many, and just enough. -/
theorem witness_ReadFailsExactlyPastTheEnd :
    (∃ (n : BitVec 5) (s : State), s.Inv ∧ s.failed = false ∧ n.toNat ≤ 16 ∧ s.SourceReady n ∧
      s.streamPos + n.toNat = 8 * s.src.length + 1) ∧
    (∃ (n : BitVec 5) (s : State), s.Inv ∧ s.failed = false ∧ n.toNat ≤ 16 ∧ s.SourceReady n ∧
      s.streamPos + n.toNat = 8 * s.src.length) ∧
    (∃ (i : Instr) (t u : State), t.failed = true ∧ exec i t = .next u) :=
  ⟨⟨9, fresh [0xA5] [] false [], fresh_inv _ _ _ _, rfl, by decide, rfl, rfl⟩,
    ⟨8, fresh [0xA5] [] false [], fresh_inv _ _ _ _, rfl, by decide, rfl, rfl⟩,
    .read 1, spent false [], _, rfl, rfl⟩

/-- The largest `bitcnt` a refill reaches, 23, from 7 buffered bits. -/
theorem witness_RefillStaysWithinItsWidths :
    (∃ (n : Nat) (s t : State), s.Inv ∧ s.failed = false ∧ n ≤ 16 ∧ refill n maxPulls s = .filled t) ∧
    (∃ t : State, refill 16 maxPulls { partway [] false [] with
      bitbuf := 0x52, bitcnt := 7, consumed := 1 } = .filled t ∧ t.bitcnt.toNat = 23) :=
  ⟨⟨16, partway [] false [], _, partway_inv _ _ _, rfl, by decide, rfl⟩, _, rfl, rfl⟩

theorem witness_CommandsLeaveTheRestAlone :
    (∃ s t : State, exec (.read 16) s = .next t) ∧ (∃ s t : State, exec .align s = .next t) :=
  ⟨⟨partway [] false [], _, rfl⟩, partway [] true [], _, rfl⟩

/-! ### Failures -/

theorem witness_ReservedWordAnswersBadRequest :
    (∃ (s : State) (w : Byte) (rest : List Event) (why : Reserved), s.env = .cmd w :: rest ∧
      s.cmdReady = true ∧ decode s.alignPresent w = .reserved why) ∧
    (∃ i : Instr, i.wellFormed = false) ∧ (∃ s : State, s.alignPresent = false) :=
  ⟨⟨partway [] false [.cmd 0x11], 0x11, [], .readCountAbove16, rfl, rfl, rfl⟩,
    ⟨.read 17, rfl⟩, partway [] false [], rfl⟩

theorem witness_FailureIsSticky :
    (∃ (i : Instr) (s : State), s.failed = true ∧ i.wellFormed = true ∧
      (i = .align → s.alignPresent = true)) ∧
    (∃ (w : Byte) (s : State) (why : Reserved), s.failed = true ∧
      decode s.alignPresent w = .reserved why) ∧
    (∃ s t : State, s.failed = true ∧ (∀ src ds rest, s.env ≠ .rst src ds :: rest) ∧
      step s = .next t) :=
  ⟨⟨.align, spent true [], rfl, rfl, fun _ => rfl⟩,
    ⟨0x20, spent false [], .alignAbsent, rfl, rfl⟩,
    spent false [.cmd 0x00], _, rfl, (fun _ _ _ h => by cases h), rfl⟩

/-- A witness for each of the four clauses. -/
theorem witness_ChecksComeInTheirOrder :
    (∃ (w : Byte) (s t : State) (why : Reserved), s.Inv ∧ accept w s = .next t ∧
      t.inFlight = none ∧ decode s.alignPresent w = .reserved why) ∧
    (∃ (w : Byte) (s t : State) (i : Instr), s.Inv ∧ accept w s = .next t ∧
      t.inFlight = none ∧ decode s.alignPresent w = .command i ∧ s.failed = true) ∧
    (∃ (w : Byte) (s t : State) (n : BitVec 5), s.Inv ∧ accept w s = .next t ∧
      t.inFlight = none ∧ decode s.alignPresent w = .command (.read n) ∧ s.failed = false ∧
      s.SourceReady n ∧ s.streamPos + n.toNat = 8 * s.src.length + 1) ∧
    (∃ (w : Byte) (s t : State), s.Inv ∧ accept w s = .next t ∧ t.inFlight = none ∧
      decode s.alignPresent w = .command .align ∧ s.failed = false) :=
  ⟨⟨0xFF, spent false [], _, .unknownOp, spent_inv _ _, rfl, rfl, rfl⟩,
    ⟨0x00, spent false [], _, .read 0, spent_inv _ _, rfl, rfl, rfl, rfl⟩,
    ⟨0x09, fresh [0xA5] [] false [], _, 9, fresh_inv _ _ _ _, rfl, rfl, rfl, rfl, rfl, rfl⟩,
    0x20, partway [] true [], _, partway_inv _ _ _, rfl, rfl, rfl, rfl⟩

theorem witness_BufferAfterFailureIsNeverObserved : ∃ s : State, s.failed = true :=
  ⟨spent false [.cmd 0x01, .take, .cmd 0x11], rfl⟩

/-- A witness for each of the five rows; for the stuck one, the second pull is never answered. -/
theorem witness_OutcomesReadAsTheTableSays :
    (∃ (n : BitVec 5) (s : State), s.Inv ∧ s.failed = false ∧ n.toNat ≤ 16 ∧ s.SourceReady n ∧
      8 * s.src.length < s.streamPos + n.toNat) ∧
    (∃ (n : BitVec 5) (s : State), s.Inv ∧ s.failed = false ∧ n.toNat ≤ 16 ∧ s.SourceReady n ∧
      s.streamPos + n.toNat = 8 * s.src.length) ∧
    (∃ s : State, s.failed = false ∧ s.alignPresent = true) ∧
    (∃ (w : Byte) (s : State) (why : Reserved), decode s.alignPresent w = .reserved why) ∧
    (∃ (n : BitVec 5) (k : Nat) (s : State), n.toNat ≤ 16 ∧ s.failed = false ∧
      s.inFlight = some (.read n) ∧ s.env = [] ∧ k + 1 = s.pullsMade n.toNat ∧
      s.delays.take k = List.replicate k (.after 0) ∧ s.delays[k]? = some .never) ∧
    (∃ (w : Byte) (i : Instr) (s : State), s.failed = true ∧
      decode s.alignPresent w = .command i) :=
  ⟨⟨1, fresh [] [] false [], fresh_inv _ _ _ _, rfl, by decide, rfl, by decide⟩,
    ⟨16, fresh [0x01, 0x80] [] false [], fresh_inv _ _ _ _, rfl, by decide, rfl, rfl⟩,
    ⟨partway [] true [], rfl, rfl⟩,
    ⟨0x3F, partway [] true [], .alignCountNotZero, rfl⟩,
    ⟨16, 1, { partway [.after 0, .never] false [] with inFlight := some (.read 16) }, by decide, rfl,
      rfl, rfl, rfl, rfl, rfl⟩,
    0x03, .read 3, spent false [], rfl, rfl⟩

theorem witness_IdleUnitHoldsItsState : ∃ s : State, s.env = [] ∧ s.inFlight = none :=
  ⟨partway [] false [], rfl, rfl⟩

/-- A command held by a source that answers its two pulls after three steps and one. -/
theorem witness_ResponsiveSourceAnswersEveryCommand :
    ∃ (i : Instr) (s : State), s.Inv ∧ s.inFlight = some i ∧ s.SourceResponsive ∧ s.NoReset :=
  ⟨.read 16, { partway [.after 3, .after 1] false [] with inFlight := some (.read 16) },
    { partway_inv [.after 3, .after 1] false [] with
      one_transaction := .inr rfl
      in_flight_read := fun i h => ⟨rfl, 16, (Option.some.inj h).symm, rfl⟩ },
    rfl, show Delay.never ∉ [.after 3, .after 1] by decide, noReset_nil _ rfl⟩

/-! ### The clients -/

theorem witness_HeaderMayBeReadWhole :
    ∃ s : State, s.Inv ∧ s.failed = false ∧ s.SourceResponsive ∧
      s.streamPos + 3 ≤ 8 * s.src.length :=
  ⟨fresh [0x73] [] false [], fresh_inv _ _ _ _, rfl, fresh_responsive _ _ _, by decide⟩

theorem witness_InvalidBlockTypesFailAtOnce : ∃ s : State, s.alignPresent = false :=
  ⟨fresh [0x73] [] false [], rfl⟩

theorem witness_TableListsSymbolsCanonically :
    ∃ (lengths : List Nat) (t : HuffmanTable), (∀ l ∈ lengths, l ≤ 15) ∧
      buildTable lengths = some t :=
  ⟨[15, 0, 1, 3, 3, 15], _, by decide, rfl⟩

/-- The code `110` of symbol 2 for the lengths 2, 1, 3, 3. -/
theorem witness_WalkDecodesEveryCanonicalCode :
    ∃ (lengths : List Nat) (t : HuffmanTable) (sym len : Nat) (s : State),
      (∀ l ∈ lengths, l ≤ 15) ∧ buildTable lengths = some t ∧ lengths[sym]? = some len ∧ 1 ≤ len ∧
      s.Inv ∧ s.failed = false ∧ s.SourceResponsive ∧ s.streamPos + len ≤ 8 * s.src.length ∧
      (∀ j, j < len → sbit s.src (s.streamPos + j) =
        (canonicalCode lengths sym).testBit (len - 1 - j)) :=
  ⟨[2, 1, 3, 3], _, 2, 3, fresh [0b00000011] [] false [], by decide, rfl, rfl, by decide,
    fresh_inv _ _ _ _, rfl, fresh_responsive _ _ _, by decide, by decide⟩

/-- A witness for each clause: all lengths zero; one code, `0`, and fifteen bits of 1 and just enough; the
same with no bit left; and the fixed distance table with four bits of 1. -/
theorem witness_DegenerateTableNeverMatches :
    (∃ (lengths : List Nat) (s : State), (∀ l ∈ lengths, l = 0) ∧ s.Inv ∧ s.failed = false ∧
      s.SourceResponsive ∧ s.streamPos + 15 ≤ 8 * s.src.length) ∧
    (∃ (lengths : List Nat) (t : HuffmanTable) (s : State), (∀ l ∈ lengths, l ≤ 15) ∧
      buildTable lengths = some t ∧ s.Inv ∧ s.failed = false ∧ s.SourceResponsive ∧
      (∀ sym len, lengths[sym]? = some len → 1 ≤ len → s.streamPos + len ≤ 8 * s.src.length →
        ∃ j, j < len ∧ sbit s.src (s.streamPos + j) ≠
          (canonicalCode lengths sym).testBit (len - 1 - j)) ∧
      s.streamPos + 15 ≤ 8 * s.src.length) ∧
    (∃ (lengths : List Nat) (t : HuffmanTable) (s : State), (∀ l ∈ lengths, l ≤ 15) ∧
      buildTable lengths = some t ∧ s.Inv ∧ s.failed = false ∧ s.SourceResponsive ∧
      (∀ sym len, lengths[sym]? = some len → 1 ≤ len → s.streamPos + len ≤ 8 * s.src.length →
        ∃ j, j < len ∧ sbit s.src (s.streamPos + j) ≠
          (canonicalCode lengths sym).testBit (len - 1 - j)) ∧
      8 * s.src.length < s.streamPos + 15) ∧
    (∃ (t : HuffmanTable) (s : State), buildTable fixedDistanceLengths = some t ∧ s.Inv ∧
      s.failed = false ∧ s.SourceResponsive ∧ s.streamPos + 15 ≤ 8 * s.src.length ∧
      (∀ j, j < 4 → sbit s.src (s.streamPos + j) = true)) := by
  have one : ∀ (src : List Byte), sbit src 0 = true →
      ∀ sym len, ([1] : List Nat)[sym]? = some len → 1 ≤ len →
      ∃ j, j < len ∧ sbit src (0 + j) ≠ (canonicalCode [1] sym).testBit (len - 1 - j) := by
    intro src hb sym len hs _
    cases sym with
    | zero => cases hs; exact ⟨0, by decide, by rw [hb]; decide⟩
    | succ k => cases hs
  refine ⟨⟨[0, 0, 0], fresh [0x00, 0x00] [] false [], by decide, fresh_inv _ _ _ _, rfl,
      fresh_responsive _ _ _, by decide⟩,
    ⟨[1], _, fresh [0xFF, 0xFF] [] false [], by decide, rfl, fresh_inv _ _ _ _, rfl,
      fresh_responsive _ _ _, fun sym len hs hl _ => one _ rfl sym len hs hl, by decide⟩,
    ⟨[1], _, fresh [0xFF] [] false [], by decide, rfl, fresh_inv _ _ _ _, rfl,
      fresh_responsive _ _ _, fun sym len hs hl _ => one _ rfl sym len hs hl, by decide⟩, ?_⟩
  obtain ⟨t, ht⟩ := Option.isSome_iff_exists.mp
    (show (buildTable fixedDistanceLengths).isSome = true by decide +kernel)
  exact ⟨t, fresh [0x0F, 0x00] [] false [], ht, fresh_inv _ _ _ _, rfl, fresh_responsive _ _ _,
    by decide, by decide⟩

/-- The fixed codes at the ends of each range (R113's table). -/
theorem witness_FixedCodesAreTheListed :
    canonicalCode fixedLengths 0 = 0x30 ∧ canonicalCode fixedLengths 143 = 0xBF ∧
    canonicalCode fixedLengths 144 = 0x190 ∧ canonicalCode fixedLengths 255 = 0x1FF ∧
    canonicalCode fixedLengths 256 = 0 ∧ canonicalCode fixedLengths 279 = 0x17 ∧
    canonicalCode fixedLengths 280 = 0xC0 ∧ canonicalCode fixedLengths 287 = 0xC7 ∧
    canonicalCode fixedDistanceLengths 29 = 29 := by
  decide +kernel

/-- 95_test_vectors.md's stream of the single byte `A`: `73 04 00`. -/
theorem witness_FixedBlockOfLiteralsInflates :
    ∃ (lits : List Byte) (s : State) (bits : List Bool), s.Inv ∧ s.failed = false ∧
      s.SourceResponsive ∧ bits = [true, true, false] ++
        (lits.flatMap fun b => codeBits fixedLengths b.toNat) ++ codeBits fixedLengths 256 ∧
      s.streamPos + bits.length ≤ 8 * s.src.length ∧
      ∀ j, j < bits.length → bits[j]? = some (sbit s.src (s.streamPos + j)) :=
  ⟨[0x41], fresh [0x73, 0x04, 0x00] [] false [],
    [true, true, false] ++ [false, true, true, true, false, false, false, true] ++
      [false, false, false, false, false, false, false],
    fresh_inv _ _ _ _, rfl, fresh_responsive _ _ _, by decide +kernel, by decide, by decide⟩

/-- A witness for each clause, at the ends of the ranges. -/
theorem witness_BlockBodyFollowsItsSymbols :
    (∃ (lenCode : HuffmanTable) (s t : State), decodeSymbol lenCode s = .done 255 t) ∧
    (∃ (lenCode : HuffmanTable) (s t : State), decodeSymbol lenCode s = .done 256 t) ∧
    (∃ (lenCode : HuffmanTable) (s t : State), decodeSymbol lenCode s = .done 257 t) ∧
    (∃ (lenCode : HuffmanTable) (s t : State), decodeSymbol lenCode s = .done 285 t) ∧
    (∃ (lenCode : HuffmanTable) (s t : State), decodeSymbol lenCode s = .done 286 t) ∧
    (∃ (distCode : HuffmanTable) (idx len didx dist : Nat) (out : List Byte) (s t u v : State),
      readExtended lengthTable idx s = .done len t ∧ decodeSymbol distCode t = .done didx u ∧
      readExtended distanceTable didx u = .done dist v ∧ out.length + 1 = dist) :=
  ⟨⟨⟨[0, 2], [255, 286]⟩, fresh [0x00] [] false [], _, rfl⟩,
    ⟨⟨[0, 2], [256, 286]⟩, fresh [0x00] [] false [], _, rfl⟩,
    ⟨⟨[0, 2], [257, 285]⟩, fresh [0x00] [] false [], _, rfl⟩,
    ⟨⟨[0, 2], [257, 285]⟩, fresh [0x01] [] false [], _, rfl⟩,
    ⟨⟨[0, 2], [255, 286]⟩, fresh [0x01] [] false [], _, rfl⟩,
    ⟨[0, 2], [0, 1]⟩, 0, _, _, _, [], fresh [0x00] [] false [], _, _, _, rfl, rfl, rfl, rfl⟩

/-- Entries of the tables of 41_client_requests.md R116 and R117 at the ends of the statement's ranges. -/
theorem witness_TablesHoldTheListedEntries :
    [0, 7, 8, 27, 28].map (lengthTable[·]?) =
      [some (3, 0), some (10, 0), some (11, 1), some (227, 5), some (258, 0)] ∧
    [0, 3, 4, 29].map (distanceTable[·]?) =
      [some (1, 0), some (4, 0), some (5, 1), some (24577, 13)] := by decide

/-- A length of 3 at distance 1 from one byte of output. -/
theorem witness_BackReferenceStaysInTheOutput :
    (∃ (distCode : HuffmanTable) (idx : Nat) (out out' : List Byte) (s t : State),
      backReference distCode idx out s = .done out' t) ∧
    (∃ (distCode : HuffmanTable) (idx len didx dist : Nat) (out : List Byte) (s t u v : State),
      readExtended lengthTable idx s = .done len t ∧ decodeSymbol distCode t = .done didx u ∧
      readExtended distanceTable didx u = .done dist v ∧ dist = out.length) :=
  ⟨⟨⟨[0, 2], [0, 1]⟩, 0, [0x61], _, fresh [0x00] [] false [], _, rfl⟩,
    ⟨[0, 2], [0, 1]⟩, 0, _, _, _, [0x61], fresh [0x00] [] false [], _, _, _, rfl, rfl, rfl, rfl⟩

theorem witness_CopyRepeatsAtItsDistance :
    ∃ (dist : Nat) (out : List Byte), 1 ≤ dist ∧ dist = out.length :=
  ⟨1, [0x61], by decide, rfl⟩

/-- Both outcomes, at the bounds: `nlen` 286 with `ndist` 30, and `nlen` 287. -/
theorem witness_DynamicCountsAreReadThenChecked :
    (∃ s : State, s.Inv ∧ s.failed = false ∧ s.SourceResponsive ∧
      s.streamPos + 14 ≤ 8 * s.src.length ∧ streamField s.src s.streamPos 5 + 257 = 286 ∧
      streamField s.src (s.streamPos + 5) 5 + 1 = 30) ∧
    (∃ s : State, s.Inv ∧ s.failed = false ∧ s.SourceResponsive ∧
      s.streamPos + 14 ≤ 8 * s.src.length ∧ streamField s.src s.streamPos 5 + 257 = 287) :=
  ⟨⟨fresh [0b10111101, 0b00000011] [] false [], fresh_inv _ _ _ _, rfl, fresh_responsive _ _ _,
      by decide, rfl, rfl⟩,
    fresh [0b00011110, 0] [] false [], fresh_inv _ _ _ _, rfl, fresh_responsive _ _ _,
      by decide, rfl⟩

/-- The longest header, and the ends of the order. -/
theorem witness_CodeLengthsStandInTheirOrder : (∃ vals : List Nat, vals.length = 19) ∧
    ([16, 17, 18, 0, 8, 7, 9, 6, 10, 5, 11, 4, 12, 3, 13, 2, 14, 1, 15] : List Nat)[0]? = some 16 ∧
    ([16, 17, 18, 0, 8, 7, 9, 6, 10, 5, 11, 4, 12, 3, 13, 2, 14, 1, 15] : List Nat)[18]? = some 15 :=
  ⟨⟨List.replicate 19 7, rfl⟩, rfl, rfl⟩

/-- A witness for each clause: a sequence, a symbol applied, each kind of repeat with 15 as the last entry,
and a repeat one entry too long. -/
theorem witness_LengthSequencesAreExact :
    (∃ (code : HuffmanTable) (count : Nat) (L : List Nat) (s t : State),
      decodeLengths code count s = .done L t ∧ count = 2) ∧
    (∃ (code : HuffmanTable) (count sym : Nat) (L : List Nat) (s t : State), L.length + 1 = count ∧
      decodeSymbol code s = .done sym t ∧ sym = 15) ∧
    (∃ (L : List Nat) (s : State), L.getLast? = some 15 ∧ s.Inv ∧ s.failed = false ∧
      s.SourceResponsive ∧ s.streamPos + 7 ≤ 8 * s.src.length) ∧
    (∃ (count r : Nat) (L : List Nat), count + 1 = L.length + r) :=
  ⟨⟨⟨[0, 2], [0, 1]⟩, 2, _, fresh [0x02] [] false [], _, rfl, rfl⟩,
    ⟨⟨[0, 2], [0, 15]⟩, 2, 15, [1], fresh [0x01] [] false [], _, rfl, rfl, rfl⟩,
    ⟨[0, 15], fresh [0x7F] [] false [], rfl, fresh_inv _ _ _ _, rfl, fresh_responsive _ _ _,
      by decide⟩,
    2, 3, [], rfl⟩

/-- A stored block of one byte, one whose check value is wrong in one bit, and one at the source's end. -/
theorem witness_StoredBlockCopiesRawBytes :
    (∃ (out out' : List Byte) (s t : State), s.Inv ∧ s.failed = false ∧ s.alignPresent = true ∧
      s.SourceResponsive ∧ storedBlock out s = .done out' t ∧ out'.length = out.length + 1) ∧
    (∃ s : State, s.Inv ∧ s.failed = false ∧ s.alignPresent = true ∧ s.SourceResponsive ∧
      s.srcPos + 4 = s.src.length ∧ streamField s.src (8 * s.srcPos + 16) 16 ≠
        (streamField s.src (8 * s.srcPos) 16 ^^^ 0xFFFF)) ∧
    (∃ s : State, s.Inv ∧ s.failed = false ∧ s.alignPresent = true ∧ s.SourceResponsive ∧
      s.srcPos + 4 + streamField s.src (8 * s.srcPos) 16 = s.src.length ∧
      streamField s.src (8 * s.srcPos + 16) 16 = (streamField s.src (8 * s.srcPos) 16 ^^^ 0xFFFF)) :=
  ⟨⟨[], _, fresh [0x01, 0x00, 0xFE, 0xFF, 0x41] [] true [], _, fresh_inv _ _ _ _, rfl, rfl,
      fresh_responsive _ _ _, rfl, rfl⟩,
    ⟨fresh [0x01, 0x00, 0xFE, 0xFE] [] true [], fresh_inv _ _ _ _, rfl, rfl, fresh_responsive _ _ _,
      rfl, by decide⟩,
    fresh [0x01, 0x00, 0xFE, 0xFF, 0x41] [] true [], fresh_inv _ _ _ _, rfl, rfl,
    fresh_responsive _ _ _, rfl, by decide⟩

/-- The parts of a dynamic block up to its two sequences of lengths. -/
def dynamicLengths (s : State) : Reply (List Nat × List Nat) :=
  (readCounts s).andThen fun c s =>
  (readFields 3 c.ncode s).andThen fun vals s =>
  (buildOrFail (arrangeLengths vals) s).andThen fun code s =>
  (decodeLengths code c.nlen s).andThen fun lens s =>
  (decodeLengths code c.ndist s).andThen fun dists s => .done (lens, dists) s

/-- Where both sequences are decoded, the parts are there one by one. -/
theorem dynamicLengths_parts {s : State} {f : List Nat → List Nat → Bool}
    (h : (match dynamicLengths s with | .done p _ => f p.1 p.2 | _ => false) = true) :
    ∃ (c : DynamicCounts) (vals : List Nat) (code : HuffmanTable) (lens dists : List Nat)
      (s1 s2 s3 s4 : State), readCounts s = .done c s1 ∧ readFields 3 c.ncode s1 = .done vals s2 ∧
      buildTable (arrangeLengths vals) = some code ∧ decodeLengths code c.nlen s2 = .done lens s3 ∧
      decodeLengths code c.ndist s3 = .done dists s4 ∧ f lens dists = true := by
  split at h
  · rename_i p t hp
    obtain ⟨c, s1, h1, hp⟩ := Reply.andThen_eq_done hp
    obtain ⟨vals, s2, h2, hp⟩ := Reply.andThen_eq_done hp
    obtain ⟨code, s2', h3, hp⟩ := Reply.andThen_eq_done hp
    obtain ⟨lens, s3, h4, hp⟩ := Reply.andThen_eq_done hp
    obtain ⟨dists, s4, h5, hp⟩ := Reply.andThen_eq_done hp
    cases hp
    unfold buildOrFail at h3
    split at h3 <;> cases h3
    exact ⟨c, vals, code, lens, dists, s1, s2, s3, t, h1, h2, ‹_›, h4, h5, h⟩
  · cases h

/-- A witness for each clause: the fixed tables; a dynamic header whose code-length set is over-subscribed
(four lengths of 1); one of the 257 lengths 1, 1, 1, 0, … and one distance length, of which the first
set is over-subscribed; the dynamic block of 95_test_vectors.md, whose tables are built; and a block that
is final, one that is not, and one that fails. -/
theorem witness_DriverRunsBlockAfterBlock :
    ((buildTable fixedLengths).isSome = true ∧ (buildTable fixedDistanceLengths).isSome = true) ∧
    (∃ (c : DynamicCounts) (vals : List Nat) (s s1 s2 : State), readCounts s = .done c s1 ∧
      readFields 3 c.ncode s1 = .done vals s2 ∧ buildTable (arrangeLengths vals) = none) ∧
    (∃ (s : State) (c : DynamicCounts) (vals : List Nat) (code : HuffmanTable) (lens dists : List Nat)
      (s1 s2 s3 s4 : State), readCounts s = .done c s1 ∧ readFields 3 c.ncode s1 = .done vals s2 ∧
      buildTable (arrangeLengths vals) = some code ∧ decodeLengths code c.nlen s2 = .done lens s3 ∧
      decodeLengths code c.ndist s3 = .done dists s4 ∧
      ((buildTable lens).isNone && (buildTable dists).isSome) = true) ∧
    (∃ (s : State) (c : DynamicCounts) (vals : List Nat) (code : HuffmanTable) (lens dists : List Nat)
      (s1 s2 s3 s4 : State), readCounts s = .done c s1 ∧ readFields 3 c.ncode s1 = .done vals s2 ∧
      buildTable (arrangeLengths vals) = some code ∧ decodeLengths code c.nlen s2 = .done lens s3 ∧
      decodeLengths code c.ndist s3 = .done dists s4 ∧
      ((buildTable lens).isSome && (buildTable dists).isSome) = true) ∧
    (∃ (h : BlockHeader) (s s1 s2 : State) (out' : List Byte), readHeader s = .done h s1 ∧
      runBlock h.blockType [] s1 = .done out' s2 ∧ h.final = 1) ∧
    (∃ (h : BlockHeader) (s s1 s2 : State) (out' : List Byte), readHeader s = .done h s1 ∧
      runBlock h.blockType [] s1 = .done out' s2 ∧ h.final = 0) ∧
    (∃ (h : BlockHeader) (s s1 s2 : State) (e : ClientError), readHeader s = .done h s1 ∧
      runBlock h.blockType [] s1 = .fail e s2) := by
  refine ⟨by decide +kernel,
    ⟨⟨257, 1, 4⟩, [1, 1, 1, 1], fresh [0x00, 0x40, 0x92, 0x00] [] false [],
      { fresh [0x00, 0x40, 0x92, 0x00] [] false [] with
        bitbuf := 1, bitcnt := 2, consumed := 14, srcPos := 2, taken := [.ok 0, .ok 0, .ok 0] },
      { fresh [0x00, 0x40, 0x92, 0x00] [] false [] with
        bitbuf := 0, bitcnt := 6, consumed := 26, srcPos := 4
        taken := [.ok 0, .ok 0, .ok 0, .ok 1, .ok 1, .ok 1, .ok 1] },
      by decide +kernel, by decide +kernel, by decide⟩,
    ⟨fresh [0x00, 0x38, 0x10, 0x00, 0x00, 0x00, 0x00, 0x00, 0x82, 0xFF, 0x69] [] false [],
      dynamicLengths_parts (f := fun l d => (buildTable l).isNone && (buildTable d).isSome)
        (by decide +kernel)⟩,
    ⟨fresh [0x00, 0x38, 0x10, 0x00, 0x00, 0x00, 0x00, 0x00, 0xD2, 0xE6, 0x7F, 0x0A, 0x01] []
        false [],
      dynamicLengths_parts (f := fun l d => (buildTable l).isSome && (buildTable d).isSome)
        (by decide +kernel)⟩,
    ⟨_, fresh [0x01, 0x00, 0x00, 0xFF, 0xFF] [] true [], _, _, _, rfl, rfl, rfl⟩,
    ⟨_, fresh [0x00, 0x00, 0x00, 0xFF, 0xFF] [] true [], _, _, _, rfl, rfl, rfl⟩,
    ⟨_, fresh [0x06] [] false [], _, _, .malformedHeader, rfl, rfl⟩⟩

/-- A failure of each kind: the source's end, and a block type of 3. -/
theorem witness_OnlyEndOfInputFailsTheReader :
    (∃ s t : State, s.failed = false ∧ inflate s = .fail .endOfInput t) ∧
    (∃ s t : State, s.failed = false ∧ inflate s = .fail .malformedHeader t) :=
  ⟨⟨fresh [] [] false [], _, rfl, rfl⟩, fresh [0x07] [] false [], _, rfl, rfl⟩

theorem witness_SessionsAlwaysEnd : ∃ s : State, s.SourceResponsive ∧ s.bitsLeft = 8 :=
  ⟨fresh [0x07] [] false [], fresh_responsive _ _ _, rfl⟩

/-- A final stored block with no bytes. -/
theorem witness_SuccessfulSessionPullsNoByteTooMany :
    ∃ (out : List Byte) (s t : State), s.Inv ∧ s.failed = false ∧ s.SourceResponsive ∧
      inflate s = .done out t :=
  ⟨_, fresh [0x01, 0x00, 0x00, 0xFF, 0xFF] [] true [], _, fresh_inv _ _ _ _, rfl,
    fresh_responsive _ _ _, rfl⟩

end Sys2Proof.Tests
end

section
/-!
PROOF. The state's own statements (10_state.md): reset, the invariant kept by every step and along every run,
and what moves forwards in every step that is not a reset.
-/

namespace Sys2Proof.Machine

/-! ## States that meet the invariant -/

/-- A buffer that is the field of the `r` stream bits before the source's position holds the stream (R24). -/
theorem State.bufferHolds_of_streamField {t : State} {pos r : Nat} (hr : r < 32)
    (hbuf : t.bitbuf = BitVec.ofNat Config.bitbufWidth (streamField t.src pos r))
    (hcnt : t.bitcnt = BitVec.ofNat Config.bitcntWidth r) (hpos : r + pos = 8 * t.srcPos) :
    t.BufferHolds pos := by
  have hval : t.bitcnt.toNat = r := by
    rw [hcnt, BitVec.toNat_ofNat]; exact Nat.mod_eq_of_lt hr
  refine ⟨by rw [hval]; exact hpos, fun j hj => ?_, fun k hk => ?_⟩
  · have hjr : j < r := hval ▸ hj
    rw [hbuf, BitVec.getLsbD_ofNat, testBit_streamField]
    simp [hjr, hjr.trans hr]
  · have hkr : ¬ k < r := by omega
    rw [hbuf, BitVec.getLsbD_ofNat, testBit_streamField]
    simp [hkr]

/-- A reader whose buffer is the last `r ≤ 7` bits pulled, with no command in flight, meets the invariant,
failed or not. -/
theorem State.inv_of_streamField {t : State} {pos r : Nat} (hat : t.streamPos = pos) (hr : r ≤ 7)
    (hbuf : t.bitbuf = BitVec.ofNat Config.bitbufWidth (streamField t.src pos r))
    (hcnt : t.bitcnt = BitVec.ofNat Config.bitcntWidth r) (hpos : r + pos = 8 * t.srcPos)
    (hsrc : t.srcPos ≤ t.src.length) (hdis : t.alignPresent = false → t.discarded = 0)
    (hfl : t.inFlight = none) : t.Inv := by
  subst hat
  have hb := State.bufferHolds_of_streamField (by omega) hbuf hcnt hpos
  have hp := hb.position
  exact {
    srcPos_le := hsrc
    bitcnt_le := fun _ => by omega
    position := fun _ => hp
    buffered := fun _ => hb.buffered
    cleared := fun _ => hb.cleared
    delivered_le := Nat.le.intro ((Nat.add_comm _ _).trans hp)
    discarded_zero := hdis
    one_transaction := .inl hfl
    in_flight_read := fun i hi => by simp [hfl] at hi }

/-- After a failure the invariant says nothing of the buffer. -/
theorem State.inv_of_failed {t : State} (hf : t.failed = true) (hfl : t.inFlight = none)
    (hsrc : t.srcPos ≤ t.src.length) (hdel : t.streamPos ≤ 8 * t.srcPos)
    (hdis : t.alignPresent = false → t.discarded = 0) : t.Inv where
  srcPos_le := hsrc
  bitcnt_le h := by simp [hf] at h
  position h := by simp [hf] at h
  buffered h := by simp [hf] at h
  cleared h := by simp [hf] at h
  delivered_le := hdel
  discarded_zero := hdis
  one_transaction := .inl hfl
  in_flight_read i hi := by simp [hfl] at hi

/-- What stands at the ports and around the reader may change, as long as one transaction is there and what
is in flight is a legal `READ` (R60 to R62). -/
theorem State.Inv.with_ports {s : State} (h : s.Inv) (ds : List Delay) (env : List Event)
    (taken : List Response) {f : Option Instr} {r : Option Response} (hone : f = none ∨ r = none)
    (hread : ∀ i, f = some i →
      s.failed = false ∧ ∃ n, i = .read n ∧ Instr.wellFormed (.read n) = true) :
    State.Inv { s with delays := ds, env := env, taken := taken, inFlight := f, rsp := r } :=
  { h with one_transaction := hone, in_flight_read := hread }

theorem State.Inv.with_env {s : State} (h : s.Inv) (env : List Event) :
    State.Inv { s with env := env } :=
  h.with_ports s.delays env s.taken h.one_transaction h.in_flight_read

theorem State.Inv.takeResponse {s : State} (h : s.Inv) (r : Response) : (s.takeResponse r).Inv :=
  h.with_ports s.delays s.env (s.taken ++ [r]) (.inr rfl) h.in_flight_read

theorem State.Inv.hold {s : State} (h : s.Inv) (hf : s.failed = false) (hr : s.rsp = none)
    {n : BitVec 5} (hw : Instr.wellFormed (.read n) = true) : (s.hold (.read n)).Inv :=
  h.with_ports (tickDelays s.delays) s.env s.taken (.inr hr) fun _ hi => by
    cases hi; exact ⟨hf, n, rfl, hw⟩

/-- A failure's response keeps the invariant, whatever the reader was (60_exceptions.md R141, R143). -/
theorem State.Inv.respond_failure {s : State} (h : s.Inv) {r : Response}
    (hr : failedAfter s.failed r = true) : (s.respond r).Inv :=
  State.inv_of_failed hr rfl h.srcPos_le h.delivered_le h.discarded_zero

/-- A reset state meets the invariant, whatever source is attached (R31; 70_reset_and_hazards.md R161). -/
theorem State.restart_inv (src : List Byte) (ds : List Delay) (s : State) :
    (State.restart src ds s).Inv :=
  State.inv_of_streamField (r := 0) rfl (Nat.zero_le _) rfl rfl rfl (Nat.zero_le _) (fun _ => rfl) rfl

/-! ## Every command and every step keeps the invariant -/

/-- Only an `ALIGN` that is built in discards, and it leaves an empty buffer (R84, R85). -/
theorem State.Inv.discardBits_respond {s : State} (h : s.Inv) (hf : s.failed = false) (ha : s.alignPresent = true) :
    (s.discardBits.respond (.ok 0)).Inv := by
  have hp := h.position hf
  refine State.inv_of_streamField (r := 0) rfl (Nat.zero_le _) rfl rfl ?_ h.srcPos_le (by simp [ha]) rfl
  simp only [State.streamPos, State.respond_consumed, State.respond_discarded, State.respond_srcPos,
    State.discardBits_consumed, State.discardBits_discarded, State.discardBits_srcPos]
  omega

/-- `READ n` past its checks leaves the unconsumed tail of the last byte pulled, or has pulled every byte
and failed (40_bitreader_commands.md R86, R89). -/
theorem State.Inv.readBits {s : State} (h : s.Inv) (hf : s.failed = false) {n : Nat} (hn : n ≤ 16) :
    (readBits n s).Inv := by
  rcases Nat.lt_or_ge (8 * s.src.length) (s.streamPos + n) with hlen | hlen
  · rw [readBits_short h hf hn hlen]
    exact State.inv_of_failed rfl rfl le_rfl
      (h.delivered_le.trans (Nat.mul_le_mul_left 8 h.srcPos_le)) h.discarded_zero
  · have hsrc : (s.streamPos + n + 7) / 8 ≤ s.src.length := by omega
    have htail : 8 * ((s.streamPos + n + 7) / 8) - (s.streamPos + n) ≤ 7 := by omega
    rw [readBits_enough h hf hn hlen]
    exact State.inv_of_streamField (Nat.add_right_comm _ _ _) htail rfl rfl
      (Nat.sub_add_cancel (by omega)) hsrc h.discarded_zero rfl

/-- A command run on a port with no response pending keeps the invariant. -/
theorem exec_keeps_inv {i : Instr} {s t : State} (h : s.Inv) (hr : s.rsp = none)
    (he : exec i s = .next t) : t.Inv := by
  rcases exec_cases i s with ⟨-, he'⟩ | ⟨-, -, -, he'⟩ | ⟨n, rfl, hw, hf, -, he'⟩ |
    ⟨n, -, hw, hf, -, he'⟩ | ⟨-, ha, hf, he'⟩ <;> rw [he'] at he <;> cases he
  · exact h.respond_failure (failedAfter_badRequest _)
  · exact h.respond_failure (failedAfter_endOfInput _)
  · exact h.hold hf hr hw
  · exact h.readBits hf (countOperand_le hw)
  · exact h.discardBits_respond hf ha

theorem State.rsp_none_of_cmdReady {s : State} (h : s.cmdReady = true) : s.rsp = none := by
  simp only [State.cmdReady, Bool.and_eq_true, Option.isNone_iff_eq_none] at h
  exact h.2

theorem State.Inv.rsp_none_of_inFlight {s : State} (h : s.Inv) {i : Instr}
    (hi : s.inFlight = some i) : s.rsp = none :=
  h.one_transaction.resolve_left (by simp [hi])

theorem step_keeps_inv {s t : State} (h : s.Inv) (hs : step s = .next t) : t.Inv := by
  by_cases hrst : ∀ src ds rest, s.env ≠ .rst src ds :: rest
  · rcases step_cases_of_not_reset hrst hs with ⟨r, rest, -, -, rfl⟩ | ⟨w, rest, -, -, -, rfl⟩ |
      ⟨i, rest, hi, he⟩ | ⟨rest, -, -, rfl⟩
    · exact (h.with_env rest).takeResponse r
    · exact (h.with_env rest).respond_failure (failedAfter_badRequest _)
    · have hr : s.rsp = none := by
        rcases hi with ⟨w, -, hready, -⟩ | ⟨hi, -⟩
        · exact State.rsp_none_of_cmdReady hready
        · exact h.rsp_none_of_inFlight hi
      exact exec_keeps_inv (h.with_env rest) hr he
    · exact h.with_env rest
  · push Not at hrst
    obtain ⟨src, ds, rest, he⟩ := hrst
    simp only [step, portStep, he] at hs
    cases hs
    exact State.restart_inv src ds _

/-- Settles O4: a reset starts anew, and every other step keeps the invariant at the ports or runs one
command, which keeps it. -/
theorem everyStepKeepsTheInvariant : Obligations.EveryStepKeepsTheInvariant :=
  fun _ _ => step_keeps_inv

/-! ## Along a run -/

/-- What every step keeps, a run of any length keeps. -/
theorem run_keeps {P : State → Prop} (hstep : ∀ {s t}, P s → step s = .next t → P t) {t : State} :
    ∀ (k : Nat) {s : State}, P s → core.run k s = .next t → P t
  | 0, s, h, hr => by cases hr; exact h
  | k + 1, s, h, hr => by
    cases hs : step s with
    | next u => exact run_keeps hstep k (hstep h hs) (run_succ_of_step k hs ▸ hr)
    | fault f => simp [Host.Core.run, show core.step s = .fault f from hs] at hr
    | refused r => simp [Host.Core.run, show core.step s = .refused r from hs] at hr

/-- Settles O5: a session starts in a reset state, and every step of it keeps the invariant. -/
theorem bufferHoldsTheUnconsumedTail : Obligations.BufferHoldsTheUnconsumedTail := by
  intro src ds ap env k t hrun hf
  have hstart : State.Inv { State.reset with src := src, delays := ds, alignPresent := ap, env := env } :=
    State.restart_inv src ds { State.reset with alignPresent := ap, env := env }
  have h : t.Inv := run_keeps step_keeps_inv k hstart hrun
  have hp := h.position hf
  exact ⟨h.bitcnt_le hf, by omega, h.delivered_le, h.buffered hf, h.cleared hf, h.discarded_zero⟩

/-! ## What only moves forwards -/

/-- From `s` to `t` the session goes on: the same source and hardware, and no position or counter goes back
(R25, R29). -/
structure State.GoesOnTo (s t : State) : Prop where
  src : t.src = s.src
  alignPresent : t.alignPresent = s.alignPresent
  srcPos : s.srcPos ≤ t.srcPos
  consumed : s.consumed ≤ t.consumed
  discarded : s.discarded ≤ t.discarded

/-- A `READ` answered with a value counts its bits as consumed; no other end of it counts any. -/
theorem readBits_goesOn {n : Nat} (hn : n ≤ 16) (s : State) : s.GoesOnTo (readBits n s) := by
  have hfr := readBits_frame n s
  have hforwards : s.srcPos ≤ (readBits n s).srcPos ∧ s.consumed ≤ (readBits n s).consumed := by
    rcases readBits_cases hn s with ⟨v, -, -, -, hc, -, -, hp, -⟩ | ⟨-, -, hc, -, -, hp, -⟩
    · exact ⟨hp, hc ▸ Nat.le_add_right _ _⟩
    · exact ⟨hp, hc.ge⟩
  exact ⟨by rw [hfr], by rw [hfr], hforwards.1, hforwards.2, by rw [hfr]⟩

theorem exec_goesOn {i : Instr} {s t : State} (he : exec i s = .next t) : s.GoesOnTo t := by
  rcases exec_cases i s with ⟨-, he'⟩ | ⟨-, -, -, he'⟩ | ⟨n, -, -, -, -, he'⟩ | ⟨n, -, hw, -, -, he'⟩ |
    ⟨-, -, -, he'⟩ <;> rw [he'] at he <;> cases he
  · exact ⟨rfl, rfl, le_rfl, le_rfl, le_rfl⟩
  · exact ⟨rfl, rfl, le_rfl, le_rfl, le_rfl⟩
  · exact ⟨rfl, rfl, le_rfl, le_rfl, le_rfl⟩
  · exact readBits_goesOn (countOperand_le hw) s
  · exact ⟨rfl, rfl, le_rfl, le_rfl, Nat.le_add_right _ _⟩

theorem step_goesOn {s t : State} (hn : ∀ src ds rest, s.env ≠ .rst src ds :: rest)
    (hs : step s = .next t) : s.GoesOnTo t := by
  rcases step_cases_of_not_reset hn hs with ⟨r, rest, -, -, rfl⟩ | ⟨w, rest, -, -, -, rfl⟩ |
    ⟨i, rest, -, he⟩ | ⟨rest, -, -, rfl⟩
  · exact ⟨rfl, rfl, le_rfl, le_rfl, le_rfl⟩
  · exact ⟨rfl, rfl, le_rfl, le_rfl, le_rfl⟩
  · have hgo := exec_goesOn he
    exact ⟨hgo.src, hgo.alignPresent, hgo.srcPos, hgo.consumed, hgo.discarded⟩
  · exact ⟨rfl, rfl, le_rfl, le_rfl, le_rfl⟩

/-- Settles O6: neither counter goes back, and the equation is the invariant's. -/
theorem streamPositionNeverDecreases : Obligations.StreamPositionNeverDecreases := by
  refine ⟨fun s t hn hs => ?_, fun s h hf => ?_⟩
  · have hgo := step_goesOn hn hs
    exact Nat.add_le_add hgo.consumed hgo.discarded
  · have hp : s.bitcnt.toNat + s.streamPos = 8 * s.srcPos := h.position hf
    omega

/-- Settles O7: the parts of `State.GoesOnTo` about the source and the hardware. -/
theorem sourceIsFixedAndReadForwards : Obligations.SourceIsFixedAndReadForwards := by
  intro s t hn hs
  have hgo := step_goesOn hn hs
  exact ⟨hgo.src, hgo.srcPos, hgo.alignPresent⟩

/-! ## Reset -/

/-- Settles O1, each value read off the reset state and off `State.restart`. -/
theorem resetValuesAreTheTables : Obligations.ResetValuesAreTheTables :=
  ⟨rfl, rfl, rfl, rfl, rfl, rfl, rfl, rfl, fun src ds s =>
    ⟨State.restart_srcPos s src ds, State.restart_delays s src ds⟩⟩

/-- Settles O3: the reset state is a restart with the empty source. -/
theorem resetMeetsTheInvariant : Obligations.ResetMeetsTheInvariant :=
  State.restart_inv [] [] State.reset

end Sys2Proof.Machine
end

section
/-!
PROOF. The byte source's statements (20_memory.md): what a pull gives, how long a silent source holds the
reader, how many pulls a `READ` makes, what successive `READ`s return, and several readers side by side.
-/

namespace Sys2Proof.Machine

/-! ## Pulls -/

/-- Settles O8: the two answers of `pullByte`; after `End` the position stands where it stood, so the next
pull meets the end again. -/
theorem pullGivesTheNextByteOrEnd : Obligations.PullGivesTheNextByteOrEnd := by
  refine fun s => ⟨fun h => ⟨s.advanceSource, pullByte_of_lt h, rfl⟩, fun h => ?_⟩
  have hagain : s.meetEnd.src.length ≤ s.meetEnd.srcPos := h
  exact ⟨s.meetEnd, s.meetEnd.meetEnd, pullByte_of_ge h, rfl, pullByte_of_ge hagain, rfl⟩

/-- Settles O10: the pulls are those `READ` lacks bytes for, cut off by the source's end, and so is the way
`src_pos` moves. -/
theorem readMakesAtMostTwoPulls : Obligations.ReadMakesAtMostTwoPulls := by
  intro n s t hw hf hr he
  have hle := countOperand_le hw
  rw [exec_read_ready hw hf hr] at he
  cases he
  have hend := readBits_srcPos_le (countOperand n) s
  have hforwards := (readBits_goesOn hle s).srcPos
  have hlacked : (readBits (countOperand n) s).srcPos ≤
      s.srcPos + (countOperand n - s.bitcnt.toNat + 7) / 8 := by
    rcases readBits_cases hle s with ⟨v, -, -, -, -, -, -, -, h⟩ | ⟨-, -, -, -, -, -, h⟩ <;> exact h
  refine ⟨Nat.min_le_left _ _, by omega, hforwards, ?_, readBits_delays hle s⟩
  simp only [State.pullsMade]
  omega

/-! ## A source that never answers -/

/-- Waiting does not shorten a delay that never ends, and reaches no delay behind it. -/
theorem tickDelays_of_never : ∀ {ds : List Delay} {k : Nat},
    ds.take k = List.replicate k (.after 0) → ds[k]? = some .never → tickDelays ds = ds
  | [], _, _, hk => by simp at hk
  | d :: ds, 0, _, hk => by
    obtain rfl : d = .never := by simpa using hk
    rfl
  | d :: ds, k + 1, h0, hk => by
    obtain ⟨rfl, htl⟩ : d = .after 0 ∧ ds.take k = List.replicate k (.after 0) := by
      simpa [List.replicate_succ] using h0
    exact congrArg (.after 0 :: ·) (tickDelays_of_never htl hk)

/-- A pull that is never answered is one the source has yet to answer. -/
theorem sourceSilent_of_never {s : State} {n k : Nat} (hk : k < s.pullsMade n)
    (h : s.delays[k]? = some .never) : s.sourceSilent n = true := by
  have hmem : Delay.never ∈ s.delays.take (s.pullsMade n) :=
    List.mem_of_getElem? ((List.getElem?_take_of_lt hk).trans h)
  exact List.any_eq_true.mpr ⟨.never, hmem, rfl⟩

/-- `READ n` is in flight, and waiting for its source changes nothing any more (20_memory.md R44). -/
structure State.HeldForEver (s : State) (n : BitVec 5) : Prop where
  wellFormed : Instr.wellFormed (.read n) = true
  healthy : s.failed = false
  inFlight : s.inFlight = some (.read n)
  rsp : s.rsp = none
  silent : s.sourceSilent (countOperand n) = true
  delays : tickDelays s.delays = s.delays

theorem State.HeldForEver.with_env {s : State} {n : BitVec 5} (h : s.HeldForEver n) (env : List Event) :
    State.HeldForEver { s with env := env } n :=
  { h with }

/-- Running the held command again leaves the state as it is. -/
theorem State.HeldForEver.exec_eq {s : State} {n : BitVec 5} (h : s.HeldForEver n) :
    exec (.read n) s = .next s := by
  have hsame : s.hold (.read n) = s := by
    simp only [State.hold, h.delays, ← h.inFlight]
  rw [exec_read_silent h.wellFormed h.healthy h.silent, hsame]

theorem continueInFlight_of_inFlight {s : State} {i : Instr} (h : s.inFlight = some i) :
    continueInFlight s = exec i s := by
  rw [continueInFlight, h]

/-- A step that is not a reset finds no response to take and no port ready for a word; it runs the held
command again. -/
theorem State.HeldForEver.step_eq {s : State} {n : BitVec 5} (h : s.HeldForEver n) (hn : s.NoReset) :
    ∃ rest, step s = .next { s with env := rest } ∧ State.NoReset { s with env := rest } := by
  rcases step_cases s with ⟨src, ds, rest, he, -⟩ | ⟨r, rest, -, hr, -⟩ | ⟨w, rest, -, hready, -⟩ |
    ⟨rest, hrest, -, -, -, hs⟩
  · exact absurd (he ▸ List.mem_cons_self) (hn src ds)
  · simp [h.rsp] at hr
  · simp [State.cmdReady, h.inFlight] at hready
  · have hsub : rest ⊆ s.env := by
      rcases hrest with he | he <;> simp [he]
    refine ⟨rest, ?_, fun src ds hmem => hn src ds (hsub hmem)⟩
    have h' := h.with_env rest
    rw [hs, continueInFlight_of_inFlight h'.inFlight, h'.exec_eq]

theorem State.HeldForEver.run_eq {n : BitVec 5} : ∀ (j : Nat) {s : State}, s.HeldForEver n → s.NoReset →
    ∃ rest, core.run j s = .next { s with env := rest }
  | 0, s, _, _ => ⟨s.env, rfl⟩
  | j + 1, s, h, hn => by
    obtain ⟨more, hs, hmore⟩ := h.step_eq hn
    obtain ⟨rest, hr⟩ := State.HeldForEver.run_eq j (h.with_env more) hmore
    exact ⟨rest, (run_succ_of_step j hs).trans hr⟩

/-- Settles O9: a silent source's `READ` is `State.hold`; when the delay it waits for never ends, holding it
is a fixed point of every step. -/
theorem silentSourceHoldsTheCommand : Obligations.SilentSourceHoldsTheCommand := by
  refine ⟨fun n s hw hf hs => exec_read_silent hw hf hs, ?_⟩
  intro n k s hw hf hi hr hn hk h0 hnever j
  have h : s.HeldForEver n :=
    ⟨hw, hf, hi, hr, sourceSilent_of_never hk hnever, tickDelays_of_never h0 hnever⟩
  exact h.run_eq j hn

/-! ## Successive reads -/

/-- A reader that goes on answering a client: the invariant holds, nothing has failed, and no pull to come
waits for ever. -/
structure State.Live (s : State) : Prop where
  inv : s.Inv
  healthy : s.failed = false
  responsive : s.SourceResponsive

/-- `t` is the live reader `s` becomes `k` stream bits later, in the same session (20_memory.md R41). -/
structure State.MovesOnBy (s t : State) (k : Nat) : Prop where
  live : t.Live
  src : t.src = s.src
  streamPos : t.streamPos = s.streamPos + k

theorem State.Live.movesOnBy_zero {s : State} (h : s.Live) : s.MovesOnBy s 0 :=
  ⟨h, rfl, rfl⟩

theorem State.MovesOnBy.trans {s t u : State} {a b : Nat} (h : s.MovesOnBy t a) (h' : t.MovesOnBy u b) :
    s.MovesOnBy u (a + b) :=
  ⟨h'.live, h'.src.trans h.src, by rw [h'.streamPos, h.streamPos, Nat.add_assoc]⟩

/-- A response taken is no stream bit. -/
theorem State.MovesOnBy.takeResponse {s t : State} {k : Nat} (h : s.MovesOnBy t k) (r : Response) :
    s.MovesOnBy (t.takeResponse r) k :=
  ⟨⟨h.live.inv.takeResponse r, h.live.healthy, h.live.responsive⟩, h.src, h.streamPos⟩

/-- `READ n` with enough bits left moves a live reader on by `n` bits (40_bitreader_commands.md R81, R88). -/
theorem State.Live.readBits_movesOnBy {s : State} (h : s.Live) {n : Nat} (hn : n ≤ 16)
    (hlen : s.streamPos + n ≤ 8 * s.src.length) : s.MovesOnBy (readBits n s) n := by
  have hread := readBits_enough h.inv h.healthy hn hlen
  have hdelays := readBits_delays hn s
  refine ⟨⟨h.inv.readBits h.healthy hn, by rw [hread]; exact h.healthy, fun hnever => ?_⟩,
    by rw [hread], ?_⟩
  · rw [hdelays] at hnever
    exact h.responsive (List.mem_of_mem_drop hnever)
  · rw [hread]
    exact Nat.add_right_comm _ _ _

/-- A client's `READ n` with enough bits left returns the stream's field, however long the source takes
(R41, R44). -/
theorem State.Live.readField_eq_done {s : State} (h : s.Live) {n : Nat} (hn : n ≤ 16)
    (hlen : s.streamPos + n ≤ 8 * s.src.length) :
    ∃ t, readField n s = .done (streamField s.src s.streamPos n) t ∧ s.MovesOnBy t n := by
  have hcount := countOperand_ofNat hn
  have hrsp : (readBits (countOperand (BitVec.ofNat 5 n)) s).rsp =
      some (.ok (BitVec.ofNat 16 (streamField s.src s.streamPos n))) := by
    rw [hcount, readBits_enough h.inv h.healthy hn hlen]
  have hissue := issue_read (wellFormed_read_ofNat hn) h.healthy hrsp
    fun hnever => h.responsive (List.mem_of_mem_take hnever)
  have hfits : streamField s.src s.streamPos n < 2 ^ 16 :=
    (streamField_lt _ _ _).trans_le (Nat.pow_le_pow_right (by omega) hn)
  rw [hcount] at hissue
  have hdone : readField n s = .done (streamField s.src s.streamPos n)
      ((readBits n s).takeResponse (.ok (BitVec.ofNat 16 (streamField s.src s.streamPos n)))) := by
    rw [readField, hissue, Reply.andThen_done, valueOrFail, BitVec.toNat_ofNat, Nat.mod_eq_of_lt hfits]
  exact ⟨_, hdone, (h.readBits_movesOnBy hn hlen).takeResponse _⟩

/-- Reads of any widths return the stream's successive fields: each begins where the one before ended
(R49). -/
theorem State.Live.readWidths_eq_done : ∀ {widths : List Nat} {s : State}, s.Live →
    (∀ n ∈ widths, n ≤ 16) → s.streamPos + widths.sum ≤ 8 * s.src.length →
    ∃ t, readWidths widths s = .done (streamFields s.src s.streamPos widths) t ∧
      s.MovesOnBy t widths.sum
  | [], s, h, _, _ => ⟨s, rfl, h.movesOnBy_zero⟩
  | n :: ns, s, h, hw, hlen => by
    obtain ⟨hn, hns⟩ := List.forall_mem_cons.mp hw
    rw [List.sum_cons] at hlen ⊢
    obtain ⟨t, ht, hst⟩ := h.readField_eq_done hn (by omega)
    obtain ⟨u, hu, htu⟩ := hst.live.readWidths_eq_done hns (by rw [hst.streamPos, hst.src]; omega)
    rw [hst.streamPos, hst.src] at hu
    exact ⟨u, by simp [readWidths, streamFields, ht, hu], hst.trans htu⟩

/-- Settles O11: `State.Live.readWidths_eq_done`, by induction on the widths. -/
theorem sequentialReadsReturnSuccessiveFields : Obligations.SequentialReadsReturnSuccessiveFields := by
  intro widths s hinv hf hresp hw hlen
  obtain ⟨t, ht, hmove⟩ := State.Live.readWidths_eq_done ⟨hinv, hf, hresp⟩ hw hlen
  exact ⟨t, ht, hmove.streamPos, hmove.live.inv, hmove.live.healthy⟩

/-! ## Several readers -/

/-- What reader `k` becomes depends on reader `k` alone, and is all that changes. -/
theorem stepAt_eq_set {k : Nat} {readers a : List State} (h : stepAt k readers = .next a) :
    ∃ t, a = readers.set k t ∧ ∀ others : List State, others[k]? = readers[k]? →
      stepAt k others = .next (others.set k t) := by
  rcases Option.eq_none_or_eq_some readers[k]? with hk | ⟨s, hk⟩
  · have hset : ∀ l : List State, l[k]? = none → l.set k State.reset = l := fun l hl =>
      List.set_eq_of_length_le (List.getElem?_eq_none_iff.mp hl)
    simp only [stepAt, hk] at h
    cases h
    refine ⟨State.reset, (hset _ hk).symm, fun others ho => ?_⟩
    rw [hk] at ho
    rw [hset _ ho, stepAt, ho]
  · simp only [stepAt, hk] at h
    cases hs : step s with
    | next t =>
      rw [hs] at h
      cases h
      exact ⟨t, rfl, fun others ho => by rw [stepAt, ho, hk]; simp only [hs]⟩
    | fault f => rw [hs] at h; cases h
    | refused r => rw [hs] at h; cases h

/-- Settles O12: each step is one `List.set`, and two at different indices commute. -/
theorem instancesShareNothing : Obligations.InstancesShareNothing := by
  intro readers a b c k l hkl hk hl hl'
  obtain ⟨t, rfl, hstepk⟩ := stepAt_eq_set hk
  obtain ⟨u, rfl, hstepl⟩ := stepAt_eq_set hl'
  have hframel : (readers.set k t)[l]? = readers[l]? := List.getElem?_set_ne hkl
  have hframek : (readers.set l u)[k]? = readers[k]? := List.getElem?_set_ne hkl.symm
  rw [hstepl _ hframel] at hl
  cases hl
  refine ⟨hframel, ?_⟩
  rw [hstepk _ hframek, List.set_comm _ _ hkl]

end Sys2Proof.Machine
end

section
/-!
PROOF. The statements of 30_encoding.md: the command word, its decoder and encoder, and what a step does at
the ports with the words offered, the command in flight and the response pending.
-/

namespace Sys2Proof

/-! ## The command word -/

theorem toNat_opField (w : Byte) : (opField w).toNat = w.toNat / 32 := by
  have hw := w.isLt
  simp only [opField, BitVec.extractLsb'_toNat, Nat.shiftRight_eq_div_pow]
  omega

theorem toNat_countField (w : Byte) : (countField w).toNat = w.toNat % 32 := by
  simp [countField, BitVec.extractLsb'_toNat]

/-- A word is its two fields, `op` above `n` (R64). -/
theorem opField_append_countField (w : Byte) : opField w ++ countField w = w := by
  refine BitVec.eq_of_toNat_eq ?_
  rw [BitVec.toNat_append, toNat_opField, toNat_countField, ← Nat.shiftLeft_add_eq_or_of_lt (by omega),
    Nat.shiftLeft_eq]
  omega

/-- The words of `READ` are those with `op = 000` (R64, R66). -/
theorem encode_read_eq_iff {n : BitVec 5} {w : Byte} :
    encode (.read n) = w ↔ opField w = 0b000 ∧ countField w = n := by
  constructor
  · rintro rfl
    exact Laws.OpField.read n
  · rintro ⟨hop, hn⟩
    rw [← opField_append_countField w, hop, hn]
    rfl

/-- The one word of `ALIGN` has `op = 001` and `n = 0` (R64, R66). -/
theorem encode_align_eq_iff {w : Byte} :
    encode .align = w ↔ opField w = 0b001 ∧ countField w = 0 := by
  constructor
  · rintro rfl
    exact Laws.OpField.align
  · rintro ⟨hop, hn⟩
    rw [← opField_append_countField w, hop, hn]
    rfl

/-! ## The decoder: one equation for each row of the command map (R66, R67) -/

section
variable {ap : Bool} {w : Byte}

theorem decode_read (hop : opField w = 0b000) (hn : (countField w).toNat ≤ Config.nMax) :
    decode ap w = .command (.read (countField w)) := by
  simp [decode, hop, hn]

theorem decode_read_above (hop : opField w = 0b000) (hn : Config.nMax < (countField w).toNat) :
    decode ap w = .reserved .readCountAbove16 := by
  simp [decode, hop, Nat.not_le.mpr hn]

theorem decode_align (hop : opField w = 0b001) (hn : countField w = 0) :
    decode ap w = if ap then .command .align else .reserved .alignAbsent := by
  simp [decode, hop, hn]

theorem decode_align_count (hop : opField w = 0b001) (hn : countField w ≠ 0) :
    decode ap w = .reserved .alignCountNotZero := by
  have hread : opField w ≠ 0b000 := by simp [hop]
  rw [decode, if_neg hread, if_pos hop, if_pos hn]

theorem decode_unknownOp (hread : opField w ≠ 0b000) (halign : opField w ≠ 0b001) :
    decode ap w = .reserved .unknownOp := by
  rw [decode, if_neg hread, if_neg halign]

/-- A well-formed command's word decodes to it, `ALIGN` where it is present. -/
theorem decode_encode {i : Instr} (hw : i.wellFormed = true) (hap : i = .align → ap = true) :
    decode ap (encode i) = .command i := by
  cases i with
  | read n =>
    obtain ⟨hop, hn⟩ := Laws.OpField.read n
    have hle : n.toNat ≤ Config.nMax := of_decide_eq_true hw
    rw [decode_read hop (hn.symm ▸ hle), hn]
  | align =>
    obtain ⟨hop, hn⟩ := Laws.OpField.align
    rw [decode_align hop hn, if_pos (hap rfl)]

/-- Only a well-formed command's own word decodes to it, and `ALIGN` only where it is present. -/
theorem encode_of_decode {i : Instr} (h : decode ap w = .command i) :
    encode i = w ∧ i.wellFormed = true ∧ (i = .align → ap = true) := by
  by_cases hread : opField w = 0b000
  · rcases Nat.lt_or_ge Config.nMax (countField w).toNat with hn | hn
    · simp [decode_read_above hread hn] at h
    · rw [decode_read hread hn] at h
      cases h
      exact ⟨encode_read_eq_iff.mpr ⟨hread, rfl⟩, decide_eq_true hn, by simp⟩
  by_cases halign : opField w = 0b001
  · by_cases hn : countField w = 0
    · cases ap with
      | false => simp [decode_align halign hn] at h
      | true =>
        rw [decode_align halign hn] at h
        cases h
        exact ⟨encode_align_eq_iff.mpr ⟨halign, hn⟩, rfl, fun _ => rfl⟩
    · simp [decode_align_count halign hn] at h
  · simp [decode_unknownOp hread halign] at h

end

/-- Settles O19: `decode_encode` on hardware with `ALIGN`, and `encode_of_decode` on either. -/
theorem decodeAndEncodeAgree : Obligations.DecodeAndEncodeAgree :=
  ⟨fun _ hw => decode_encode hw fun _ => rfl, fun _ _ _ => encode_of_decode⟩

/-- Settles O18: the ranges of words are the values of the two fields, row by row. -/
theorem everyWordIsReadAlignOrReserved : Obligations.EveryWordIsReadAlignOrReserved := by
  intro ap w
  have hop := toNat_opField w
  have hn := toNat_countField w
  split_ifs with hread habove halign hcount
  · have hcountField : countField w = BitVec.ofNat 5 w.toNat :=
      BitVec.eq_of_toNat_eq (by rw [hn, BitVec.toNat_ofNat])
    rw [← hcountField]
    exact decode_read (by bv_omega) (by simp only [Config.nMax]; omega)
  · exact decode_read_above (by bv_omega) (by simp only [Config.nMax]; omega)
  · rw [decode_align (by bv_omega) (by bv_omega), if_pos ‹_›]
  · rw [decode_align (by bv_omega) (by bv_omega), if_neg ‹_›]
  · exact decode_align_count (by bv_omega) (by bv_omega)
  · exact decode_unknownOp (by bv_omega) (by bv_omega)

/-- The word of a well-formed command, read as a row of the opcode table. -/
theorem decodeTableWord_encode {i : Instr} (hw : i.wellFormed = true) :
    decodeTableWord 8 (encode i).toNat = some i := by
  have hword : BitVec.ofNat 8 ((encode i).toNat % 2 ^ 8) = encode i := by
    rw [Nat.mod_eq_of_lt (encode i).isLt, BitVec.ofNat_toNat, BitVec.setWidth_eq]
  rw [decodeTableWord, hword, decode_encode hw fun _ => rfl]

/-- Settles O20: seven words of commands, and one with a count above 16. -/
theorem specWordsDecode : Obligations.SpecWordsDecode :=
  ⟨decodeTableWord_encode (i := .read 0) rfl, decodeTableWord_encode (i := .read 1) rfl,
    decodeTableWord_encode (i := .read 5) rfl, decodeTableWord_encode (i := .read 7) rfl,
    decodeTableWord_encode (i := .read 13) rfl, decodeTableWord_encode (i := .read 16) rfl,
    decodeTableWord_encode (i := .align) rfl, rfl⟩

/-- Settles O21, each name and each word read off the two definitions. -/
theorem pseudoInstructionsAreOneWord : Obligations.PseudoInstructionsAreOneWord :=
  ⟨rfl, rfl, rfl, rfl, rfl, rfl, rfl, rfl, rfl, rfl⟩

end Sys2Proof

namespace Sys2Proof.Machine

/-! ## Steps at the ports -/

theorem accept_of_command {w : Byte} {s : State} {i : Instr}
    (hd : decode s.alignPresent w = .command i) : accept w s = exec i s := by
  simp [accept, hd]

theorem step_of_cmd_of_ready {s : State} {w : Byte} {rest : List Event} (he : s.env = .cmd w :: rest)
    (hready : s.cmdReady = true) : step s = accept w { s with env := rest } := by
  simp [step, portStep, he, hready]

theorem step_of_env_nil {s : State} (he : s.env = []) : step s = continueInFlight s := by
  simp [step, portStep, he]

theorem step_of_take {s : State} {r : Response} {rest : List Event} (he : s.env = .take :: rest)
    (hr : s.rsp = some r) : step s = .next (State.takeResponse r { s with env := rest }) := by
  simp [step, portStep, he, hr]

theorem step_runs_offered {s : State} {w : Byte} {rest : List Event} {i : Instr}
    (he : s.env = .cmd w :: rest) (hready : s.cmdReady = true)
    (hd : decode s.alignPresent w = .command i) : step s = exec i { s with env := rest } :=
  (step_of_cmd_of_ready he hready).trans (accept_of_command hd)

/-- The word placed for the next step is the script's first event, whole if it has 8 bits. -/
theorem State.withFetchWord_env (s : State) {w : Nat} (hw : w < 256) :
    (s.withFetchWord 8 w).env = .cmd (BitVec.ofNat 8 w) :: s.env := by
  have hword : w % 2 ^ 8 = w := Nat.mod_eq_of_lt hw
  rw [State.withFetchWord, hword]

/-- Settles O13: `accept` runs the decoded command; `withFetchWord` is one more script that offers a word. -/
theorem stepRunsTheOfferedCommand : Obligations.StepRunsTheOfferedCommand := by
  refine ⟨fun s w rest i => step_runs_offered, fun s i he hi => ?_, fun s w i hw hd => ?_⟩
  · rw [step_of_env_nil he, continueInFlight_of_inFlight hi]
  · exact step_runs_offered (s.withFetchWord_env hw) rfl hd

/-- Settles O17: the step is `State.takeResponse`. -/
theorem takeHandsOverTheResponse : Obligations.TakeHandsOverTheResponse :=
  fun _ _ _ => step_of_take

theorem Response.status_ne_three (r : Response) : r.status ≠ 0b11 := by
  cases r <;> simp [Response.status]

/-- A failure carries no value, so the bus shows 0 with it (R63). -/
theorem State.rspData_of_no_value {s : State} {r : Response} (hr : s.rsp = some r)
    (hv : r.value = none) : s.rspData = some 0 := by
  simp [State.rspData, hr, hv]

/-- Settles O14: the codes and values are read off the two definitions. -/
theorem responsesCarryTheirStatus : Obligations.ResponsesCarryTheirStatus :=
  ⟨fun _ => ⟨rfl, rfl⟩, rfl, rfl, rfl, rfl, Response.status_ne_three, fun _ h =>
    h.elim (State.rspData_of_no_value · rfl) (State.rspData_of_no_value · rfl)⟩

/-! ## When the source is pulled -/

/-- Only a `READ` that lacks bits, on a reader that has not failed, moves the source (R62). -/
theorem exec_moves_source {i : Instr} {s t : State} (he : exec i s = .next t)
    (hmove : t.srcPos ≠ s.srcPos) :
    s.failed = false ∧ ∃ n, i = .read n ∧ s.bitcnt.toNat < n.toNat ∧ n.toNat ≤ 16 := by
  rcases exec_cases i s with ⟨-, he'⟩ | ⟨-, -, -, he'⟩ | ⟨n, -, -, -, -, he'⟩ | ⟨n, hi, hw, hf, -, he'⟩ |
    ⟨-, -, -, he'⟩ <;> rw [he'] at he <;> cases he
  · exact absurd rfl hmove
  · exact absurd rfl hmove
  · exact absurd rfl hmove
  · have hlacks : s.bitcnt.toNat < countOperand n := by
      by_contra hbuffered
      rw [readBits_buffered (Nat.le_of_not_lt hbuffered)] at hmove
      exact hmove rfl
    exact ⟨hf, n, hi, hlacks, countOperand_le hw⟩
  · exact absurd rfl hmove

/-- Settles O16: of what a step can do, only running a command can move the source. -/
theorem pullsOnlyForAReadThatLacksBits : Obligations.PullsOnlyForAReadThatLacksBits := by
  intro s t hn hs hmove
  rcases step_cases_of_not_reset hn hs with ⟨r, rest, -, -, rfl⟩ | ⟨w, rest, -, -, -, rfl⟩ |
    ⟨i, rest, hi, he⟩ | ⟨rest, -, -, rfl⟩
  · exact absurd rfl hmove
  · exact absurd rfl hmove
  · obtain ⟨hf, n, rfl, hlacks, hle⟩ := exec_moves_source he hmove
    refine ⟨hf, n, hlacks, hle, ?_⟩
    rcases hi with ⟨w, henv, -, hd⟩ | ⟨hfl, -⟩
    · exact .inr ⟨w, rest, henv, hd⟩
    · exact .inl hfl
  · exact absurd rfl hmove

/-! ## One response for every command -/

/-- A ready port holds no command: those of the session are answered and taken, or still to be offered. -/
theorem State.transactions_of_ready {s : State} (h : s.cmdReady = true) :
    s.transactions = s.taken.length + s.env.countP Event.isCommand := by
  simp only [State.cmdReady, Bool.and_eq_true, Option.isNone_iff_eq_none] at h
  obtain ⟨hfl, hr⟩ := h
  simp [State.transactions, hfl, hr]

/-- A command run with no response pending is one transaction at the port, in flight or answered. -/
theorem exec_transactions {i : Instr} {s t : State} (hr : s.rsp = none) (he : exec i s = .next t) :
    t.transactions = s.taken.length + 1 + s.env.countP Event.isCommand := by
  obtain ⟨-, -, henv, htaken⟩ := exec_frame he
  rcases exec_answers_or_holds he with ⟨hrsp, hfl⟩ | ⟨rfl, -⟩
  · obtain ⟨r, hrsp⟩ := Option.isSome_iff_exists.mp hrsp
    simp [State.transactions, henv, htaken, hrsp, hfl]
  · simp [State.transactions, hr]

/-- A client that does nothing offers nothing. -/
theorem countP_isCommand_of_idle {env rest : List Event} (h : env = rest ∨ env = .idle :: rest) :
    rest.countP Event.isCommand = env.countP Event.isCommand := by
  rcases h with rfl | rfl
  · rfl
  · exact (List.countP_cons_of_neg (by simp [Event.isCommand])).symm

theorem countP_isCommand_cmd (w : Byte) (rest : List Event) :
    (Event.cmd w :: rest).countP Event.isCommand = rest.countP Event.isCommand + 1 :=
  List.countP_cons_of_pos rfl

theorem countP_isCommand_take (rest : List Event) :
    (Event.take :: rest).countP Event.isCommand = rest.countP Event.isCommand :=
  List.countP_cons_of_neg (by simp [Event.isCommand])

/-- A command moves from one place to the next, and none is lost or made (R61). -/
theorem step_keeps_transactions {s t : State} (h : s.Inv)
    (hn : ∀ src ds rest, s.env ≠ .rst src ds :: rest) (hs : step s = .next t) :
    t.transactions = s.transactions := by
  rcases step_cases_of_not_reset hn hs with ⟨r, rest, he, hr, rfl⟩ | ⟨w, rest, he, hready, -, rfl⟩ |
    ⟨i, rest, ⟨w, he, hready, -⟩ | ⟨hfl, he⟩, hexec⟩ | ⟨rest, -, he, rfl⟩
  · simp [State.transactions, he, hr, countP_isCommand_take]
  · rw [State.transactions_of_ready hready, he, countP_isCommand_cmd]
    simp [State.transactions, State.raiseBadRequest_eq, Nat.add_right_comm, Nat.add_assoc]
  · have hr := State.rsp_none_of_cmdReady hready
    rw [exec_transactions (s := { s with env := rest }) hr hexec, State.transactions_of_ready hready, he,
      countP_isCommand_cmd, Nat.add_right_comm, Nat.add_assoc]
  · have hr := h.rsp_none_of_inFlight hfl
    rw [exec_transactions (s := { s with env := rest }) hr hexec, countP_isCommand_of_idle he]
    simp [State.transactions, hfl, hr]
  · simp only [State.transactions, countP_isCommand_of_idle he]

/-- Only a client taking the pending response adds to those taken. -/
theorem step_taken {s t : State} (hn : ∀ src ds rest, s.env ≠ .rst src ds :: rest)
    (hs : step s = .next t) :
    t.taken = s.taken ∨ ∃ r, s.rsp = some r ∧ t.rsp = none ∧ t.taken = s.taken ++ [r] := by
  rcases step_cases_of_not_reset hn hs with ⟨r, rest, -, hr, rfl⟩ | ⟨w, rest, -, -, -, rfl⟩ |
    ⟨i, rest, -, he⟩ | ⟨rest, -, -, rfl⟩
  · exact .inr ⟨r, hr, rfl, rfl⟩
  · exact .inl rfl
  · obtain ⟨-, -, -, htaken⟩ := exec_frame he
    exact .inl htaken
  · exact .inl rfl

/-- A word offered at a port that is not ready stays offered (R61, R172). -/
theorem step_keeps_offer {s t : State} {w : Byte} {rest : List Event} (henv : s.env = .cmd w :: rest)
    (hready : s.cmdReady = false) (hs : step s = .next t) : t.env = s.env := by
  have hn : ∀ src ds more, s.env ≠ .rst src ds :: more := by simp [henv]
  have hkept : ∀ {more}, s.env = more ∨ s.env = .idle :: more → more = s.env := fun h =>
    (h.resolve_right (by simp [henv])).symm
  rcases step_cases_of_not_reset hn hs with ⟨r, more, he, -⟩ | ⟨v, more, -, hready', -⟩ |
    ⟨i, more, ⟨v, -, hready', -⟩ | ⟨-, he⟩, hexec⟩ | ⟨more, -, he, rfl⟩
  · simp [henv] at he
  · simp [hready] at hready'
  · simp [hready] at hready'
  · obtain ⟨-, -, hkeeps, -⟩ := exec_frame hexec
    exact hkeeps.trans (hkept he)
  · exact hkept he

/-- Settles O15: the count is kept, the record grows at its end only, and a port that is not ready accepts
nothing. -/
theorem oneResponseForEveryCommand : Obligations.OneResponseForEveryCommand :=
  ⟨fun _ _ h hn hs => ⟨step_keeps_transactions h hn hs, step_taken hn hs⟩,
    fun _ _ _ _ => step_keeps_offer⟩

end Sys2Proof.Machine
end

section
/-!
PROOF. The commands' statements (40_bitreader_commands.md): what `READ` and `ALIGN` answer and leave, the laws
of R86 to R90, and that nothing depends on the buffer a failure leaves.
-/

namespace Sys2Proof.Machine

/-! ## What an answer leaves -/

theorem wellFormed_read_of_le {n : BitVec 5} (hn : n.toNat ≤ 16) :
    Instr.wellFormed (.read n) = true :=
  decide_eq_true hn

theorem State.respond_ok_eq (s : State) (v : Half) :
    s.respond (.ok v) = { s with rsp := some (.ok v), inFlight := none } := by
  rw [State.respond, failedAfter_ok]

theorem State.respond_of_failed {s : State} (hf : s.failed = true) (r : Response) :
    s.respond r = { s with rsp := some r, inFlight := none } := by
  have hsticky : failedAfter s.failed r = s.failed := by rw [failedAfter, hf, Bool.true_or]
  rw [State.respond, hsticky]

theorem exec_align_ready {s : State} (ha : s.alignPresent = true) (hf : s.failed = false) :
    exec .align s = .next (s.discardBits.respond (.ok 0)) := by
  simp [exec, execAlign, ha, hf]

theorem exec_align_failed {s : State} (ha : s.alignPresent = true) (hf : s.failed = true) :
    exec .align s = .next (s.respond .endOfInput) := by
  simp [exec, execAlign, ha, hf]

theorem exec_align_absent {s : State} (ha : s.alignPresent = false) :
    exec .align s = .next s.raiseBadRequest := by
  simp [exec, execAlign, ha]

theorem exec_read_failed {n : BitVec 5} {s : State} (hw : Instr.wellFormed (.read n) = true)
    (hf : s.failed = true) : exec (.read n) s = .next (s.respond .endOfInput) := by
  have hlegal : ¬ Config.nMax < countOperand n := Nat.not_lt.mpr (countOperand_le hw)
  simp [exec, execRead, hlegal, hf]

/-- No pull is made for bits that are buffered, so no source is silent for them (20_memory.md R44). -/
theorem State.sourceReady_of_buffered {s : State} {n : BitVec 5} (h : n.toNat ≤ s.bitcnt.toNat) :
    s.SourceReady n := by
  have hnone : s.pullsMade (countOperand n) = 0 := by
    simp only [State.pullsMade, countOperand]; omega
  rw [State.SourceReady, State.sourceSilent, hnone, List.take_zero, List.any_nil]

/-! ## READ -/

/-- Settles O22: past its checks the command is `readBits`, and `readBits_enough` is its next state. -/
theorem readReturnsTheStreamField : Obligations.ReadReturnsTheStreamField := by
  intro n s hinv hf hn hlen hready
  rw [exec_read_ready (wellFormed_read_of_le hn) hf hready]
  exact congrArg _ (readBits_enough hinv hf hn hlen)

/-- Settles O25: a `READ` that delivers a value delivers one below `2^n`; the other end delivers none. -/
theorem readValueFitsItsWidth : Obligations.ReadValueFitsItsWidth := by
  intro n s t v hw hf hready he hv
  rw [exec_read_ready hw hf hready] at he
  cases he
  rcases readBits_cases (countOperand_le hw) s with ⟨w, hw', hlt, -⟩ | ⟨hend, -⟩
  · rw [hw'] at hv
    cases hv
    exact Nat.le_sub_one_of_lt hlt
  · rw [hend] at hv
    cases hv

/-- Settles O24: the refill stops before its first pull. -/
theorem readWithinTheBufferPullsNothing : Obligations.ReadWithinTheBufferPullsNothing := by
  intro n s hf hn hbuf
  rw [exec_read_ready (wellFormed_read_of_le hn) hf (State.sourceReady_of_buffered hbuf),
    readBits_buffered (n := countOperand n) hbuf, State.deliver_eq, State.respond_ok_eq,
    State.consumeBits, countOperand, BitVec.ofNat_toNat, BitVec.setWidth_eq]
  rfl

/-- Settles O23: 0 bits are always buffered, and taking them changes nothing. -/
theorem readZeroAlwaysAnswersZero : Obligations.ReadZeroAlwaysAnswersZero := by
  intro s hf
  refine (readWithinTheBufferPullsNothing 0 s hf (Nat.zero_le _) (Nat.zero_le _)).trans ?_
  simp

/-- Settles O31: a refill that met the end would not be filled, so `refill_filled` describes this one. -/
theorem refillStaysWithinItsWidths : Obligations.RefillStaysWithinItsWidths := by
  intro n s t hinv hf hn hfill
  have hcnt := hinv.bitcnt_le hf
  have hpulls : n ≤ s.bitcnt.toNat + 8 * maxPulls := by simp only [maxPulls]; omega
  rcases Nat.lt_or_ge (8 * s.src.length) (s.streamPos + n) with hlen | hlen
  · obtain ⟨u, hended, -⟩ := refill_ended hn maxPulls s _ (hinv.bufferHolds hf) hinv.srcPos_le hpulls hlen
    rw [hended] at hfill
    cases hfill
  · obtain ⟨u, hfilled, hold, hge, hval, heq⟩ :=
      refill_filled hn maxPulls s _ (hinv.bufferHolds hf) hpulls hlen
    rw [hfilled] at hfill
    cases hfill
    have hsrcPos : t.srcPos = s.srcPos + (n - s.bitcnt.toNat + 7) / 8 := by rw [heq]
    refine ⟨hge, by omega, Nat.lt_pow_two_of_testBit _ fun k hk => ?_, by omega⟩
    rw [BitVec.testBit_toNat, hold.cleared k hk]

/-! ## ALIGN -/

/-- Settles O26: the two answers of an `ALIGN` that is built in, each written out. -/
theorem alignDiscardsTheBuffer : Obligations.AlignDiscardsTheBuffer := by
  refine fun s ha => ⟨fun hf => ?_, fun hf => ?_⟩
  · rw [exec_align_ready ha hf, State.respond_ok_eq, State.discardBits]
  · rw [exec_align_failed ha hf, State.respond_of_failed hf]

/-- A stream byte is the field of the 8 bits it holds (00_scope.md R9; 20_memory.md R41). -/
theorem streamField_byte {S : List Byte} {p : Nat} {b : Byte} (h : S[p]? = some b) :
    streamField S (8 * p) 8 = b.toNat := by
  refine Nat.eq_of_testBit_eq fun j => ?_
  rw [testBit_streamField, BitVec.testBit_toNat]
  rcases Nat.lt_or_ge j 8 with hj | hj
  · have hdiv : (8 * p + j) / 8 = p := by omega
    have hmod : (8 * p + j) % 8 = j := by omega
    rw [sbit_eq_getLsbD (hdiv.symm ▸ h), hmod, decide_eq_true hj, Bool.true_and]
  · rw [BitVec.getLsbD_of_ge _ _ hj, decide_eq_false (Nat.not_lt.mpr hj), Bool.false_and]

/-- The 16 bits of two stream bytes, the first below the second (R84). -/
theorem streamField_two_bytes {S : List Byte} {p : Nat} {b0 b1 : Byte} (h0 : S[p]? = some b0)
    (h1 : S[p + 1]? = some b1) : streamField S (8 * p) 16 = b0.toNat ||| b1.toNat <<< 8 := by
  have hnext : 8 * p + 8 = 8 * (p + 1) := rfl
  rw [streamField_add S (8 * p) 8 8, streamField_byte h0, hnext, streamField_byte h1]

/-- After `ALIGN` a live reader is live, at the bit where the source's next byte begins (R84). -/
theorem State.Live.discardBits_movesOn {s : State} (h : s.Live) (ha : s.alignPresent = true) :
    s.MovesOnBy (s.discardBits.respond (.ok 0)) s.bitcnt.toNat :=
  ⟨⟨h.inv.discardBits_respond h.healthy ha, (failedAfter_ok _ _).trans h.healthy, h.responsive⟩, rfl,
    (Nat.add_assoc _ _ _).symm⟩

/-! ## What a client's READ answers -/

/-- A live reader's client has each of its `READ`s answered as `readBits` answers it (20_memory.md R44). -/
theorem State.Live.issue_read_eq {s : State} (h : s.Live) {n : BitVec 5} (hn : n.toNat ≤ 16) {r : Response}
    (hr : (readBits n.toNat s).rsp = some r) :
    issue (.read n) s = .done r ((readBits n.toNat s).takeResponse r) :=
  issue_read (wellFormed_read_of_le hn) h.healthy hr fun hnever =>
    h.responsive (List.mem_of_mem_take hnever)

/-- Settles O27: after `ALIGN` the stream position is the start of the source's next byte. -/
theorem readAfterAlignStartsOnAByte : Obligations.ReadAfterAlignStartsOnAByte := by
  intro n s hinv ha hf hn hlen hresp
  have hmove := State.Live.discardBits_movesOn ⟨hinv, hf, hresp⟩ ha
  have hpos : (s.discardBits.respond (.ok 0)).streamPos = 8 * s.srcPos := by
    have hp : s.bitcnt.toNat + s.streamPos = 8 * s.srcPos := hinv.position hf
    rw [hmove.streamPos, Nat.add_comm, hp]
  have hrsp : (readBits n.toNat (s.discardBits.respond (.ok 0))).rsp =
      some (.ok (BitVec.ofNat 16 (streamField s.src (8 * s.srcPos) n.toNat))) := by
    rw [readBits_enough hmove.live.inv hmove.live.healthy hn (by rw [hpos, hmove.src]; exact hlen), hpos,
      hmove.src]
  exact ⟨_, _, exec_align_ready ha hf, hmove.live.issue_read_eq hn hrsp, fun _ _ _ => streamField_two_bytes⟩

/-! ## Two reads and one -/

/-- The reader `n` stream bits further on, with a ready port: the buffer holds what is left of the last byte
pulled, and every pull has used up its delay (R86, R88). -/
def State.skipBits (n : Nat) (s : State) : State :=
  { s with
    bitbuf := BitVec.ofNat 32 (streamField s.src (s.streamPos + n)
      (8 * ((s.streamPos + n + 7) / 8) - (s.streamPos + n)))
    bitcnt := BitVec.ofNat 5 (8 * ((s.streamPos + n + 7) / 8) - (s.streamPos + n))
    consumed := s.consumed + n
    srcPos := (s.streamPos + n + 7) / 8
    delays := s.delays.drop ((s.streamPos + n + 7) / 8 - s.srcPos)
    inFlight := none
    rsp := none }

theorem State.skipBits_streamPos (n : Nat) (s : State) : (s.skipBits n).streamPos = s.streamPos + n :=
  Nat.add_right_comm _ _ _

/-- Going on by `a` bits and then by `b` is going on by `a + b`. -/
theorem State.skipBits_skipBits {s : State} {a : Nat} (b : Nat) (h : s.srcPos ≤ (s.streamPos + a + 7) / 8) :
    (s.skipBits a).skipBits b = s.skipBits (a + b) := by
  have hpos : (s.skipBits a).streamPos + b = s.streamPos + (a + b) := by
    rw [State.skipBits_streamPos, Nat.add_assoc]
  have hdelays : (s.skipBits a).delays.drop ((s.streamPos + (a + b) + 7) / 8 - (s.streamPos + a + 7) / 8) =
      s.delays.drop ((s.streamPos + (a + b) + 7) / 8 - s.srcPos) := by
    rw [State.skipBits, List.drop_drop]
    congr 1
    omega
  rw [State.skipBits, hpos]
  refine State.eq_of_fields _ _ rfl rfl rfl (Nat.add_assoc _ _ _) rfl rfl rfl hdelays rfl rfl rfl rfl rfl rfl

/-- With enough bits left no pull meets the end: the pulls are the bytes up to the new position (R88). -/
theorem State.Inv.pullsMade_eq {s : State} (h : s.Inv) (hf : s.failed = false) {n : Nat}
    (hlen : s.streamPos + n ≤ 8 * s.src.length) :
    s.pullsMade n = (s.streamPos + n + 7) / 8 - s.srcPos := by
  have hp : s.bitcnt.toNat + s.streamPos = 8 * s.srcPos := h.position hf
  simp only [State.pullsMade]
  omega

/-- A client's `READ n` with enough bits left: the stream's field, and the whole state it leaves (R86). -/
theorem State.Live.readField_enough {s : State} (h : s.Live) {n : Nat} (hn : n ≤ 16)
    (hlen : s.streamPos + n ≤ 8 * s.src.length) :
    readField n s = .done (streamField s.src s.streamPos n) { s.skipBits n with
      taken := s.taken ++ [.ok (BitVec.ofNat 16 (streamField s.src s.streamPos n))] } := by
  have hcount : (BitVec.ofNat 5 n).toNat = n := countOperand_ofNat hn
  have hread := readBits_enough h.inv h.healthy hn hlen
  have hissue := h.issue_read_eq (n := BitVec.ofNat 5 n) (by rw [hcount]; exact hn)
    (r := .ok (BitVec.ofNat 16 (streamField s.src s.streamPos n))) (by rw [hcount, hread])
  have hfits : streamField s.src s.streamPos n < 2 ^ 16 :=
    (streamField_lt _ _ _).trans_le (Nat.pow_le_pow_right (by omega) hn)
  rw [readField, hissue, Reply.andThen_done, valueOrFail, BitVec.toNat_ofNat, Nat.mod_eq_of_lt hfits, hcount,
    hread, h.inv.pullsMade_eq h.healthy hlen]
  rfl

/-- A client's `READ n` with too few bits left (R89). -/
theorem State.Live.readField_short {s : State} (h : s.Live) {n : Nat} (hn : n ≤ 16)
    (hlen : 8 * s.src.length < s.streamPos + n) : ∃ t, readField n s = .fail .endOfInput t := by
  have hcount : (BitVec.ofNat 5 n).toNat = n := countOperand_ofNat hn
  have hissue := h.issue_read_eq (n := BitVec.ofNat 5 n) (by rw [hcount]; exact hn) (r := .endOfInput)
    (by rw [hcount, readBits_short h.inv h.healthy hn hlen])
  exact ⟨_, by rw [readField, hissue, Reply.andThen_done, valueOrFail]⟩

/-- A client's `READ n` succeeds just when the bits are there. -/
theorem State.Live.readField_done_iff {s : State} (h : s.Live) {n : Nat} (hn : n ≤ 16) :
    (∃ v t, readField n s = .done v t) ↔ s.streamPos + n ≤ 8 * s.src.length := by
  refine ⟨fun ⟨v, t, hdone⟩ => ?_, fun hlen => ⟨_, _, h.readField_enough hn hlen⟩⟩
  by_contra hlen
  obtain ⟨u, hfail⟩ := h.readField_short hn (Nat.lt_of_not_le hlen)
  rw [hfail] at hdone
  cases hdone

/-- A client's `READ n` fails just when the bits are not there (R89). -/
theorem State.Live.readField_fail_iff {s : State} (h : s.Live) {n : Nat} (hn : n ≤ 16) :
    (∃ t, readField n s = .fail .endOfInput t) ↔ 8 * s.src.length < s.streamPos + n := by
  refine ⟨fun ⟨t, hfail⟩ => ?_, h.readField_short hn⟩
  by_contra hlen
  rw [h.readField_enough hn (Nat.le_of_not_lt hlen)] at hfail
  cases hfail

/-- What a live reader's client has read, and that the reader goes on from there. -/
theorem State.Live.readField_done {s t : State} (h : s.Live) {n v : Nat} (hn : n ≤ 16)
    (hdone : readField n s = .done v t) :
    v = streamField s.src s.streamPos n ∧ s.MovesOnBy t n ∧ t = { s.skipBits n with taken := t.taken } := by
  have hlen := (h.readField_done_iff hn).mp ⟨v, t, hdone⟩
  have henough := h.readField_enough hn hlen
  obtain ⟨t', hdone', hmove⟩ := h.readField_eq_done hn hlen
  rw [hdone] at henough hdone'
  cases hdone'
  cases henough
  exact ⟨rfl, hmove, rfl⟩

/-- The values and the state of R87: both are the field and the state of going on by `a + b` bits. -/
theorem State.Live.two_reads_done {s t u : State} (h : s.Live) {a b x y : Nat} (hab : a + b ≤ 16)
    (hx : readField a s = .done x t) (hy : readField b t = .done y u) :
    ∃ w, readField (a + b) s = .done (x ||| (y <<< a)) w ∧ { w with taken := u.taken } = u := by
  obtain ⟨rfl, hmove, ht⟩ := h.readField_done (by omega) hx
  obtain ⟨rfl, -, hu⟩ := hmove.live.readField_done (by omega) hy
  have hlen := (hmove.live.readField_done_iff (n := b) (by omega)).mp ⟨_, _, hy⟩
  rw [hmove.streamPos, hmove.src, Nat.add_assoc] at hlen
  have hpos : s.srcPos ≤ (s.streamPos + a + 7) / 8 := by
    have hp : s.bitcnt.toNat + s.streamPos = 8 * s.srcPos := h.inv.position h.healthy
    have hc := h.inv.bitcnt_le h.healthy
    omega
  refine ⟨_, by rw [hmove.src, hmove.streamPos, ← streamField_add]; exact h.readField_enough hab hlen, ?_⟩
  rw [hu, ht]
  exact congrArg (fun r : State => { r with taken := u.taken }) (State.skipBits_skipBits b hpos).symm

/-- Settles O28: two reads succeed just when the bits of both are there, and then give the bits of one. -/
theorem twoReadsConcatenate : Obligations.TwoReadsConcatenate := by
  intro a b s hinv hf hab hresp
  have h : s.Live := ⟨hinv, hf, hresp⟩
  have ha : a ≤ 16 := by omega
  have hb : b ≤ 16 := by omega
  refine ⟨fun x y t u => h.two_reads_done hab, ?_⟩
  rw [h.readField_fail_iff hab, h.readField_fail_iff ha]
  constructor
  · intro hend
    rcases Nat.lt_or_ge (8 * s.src.length) (s.streamPos + a) with hfirst | hfirst
    · exact .inl hfirst
    · obtain ⟨t, hdone, hmove⟩ := h.readField_eq_done ha hfirst
      obtain ⟨u, hfail⟩ := hmove.live.readField_short hb (by rw [hmove.src, hmove.streamPos]; omega)
      exact .inr ⟨_, t, u, hdone, hfail⟩
  · rintro (hfirst | ⟨x, t, u, hdone, hfail⟩)
    · omega
    · obtain ⟨-, hmove, -⟩ := h.readField_done ha hdone
      have hsecond := (hmove.live.readField_fail_iff hb).mp ⟨u, hfail⟩
      rw [hmove.src, hmove.streamPos] at hsecond
      omega

/-! ## Every command -/

/-- Settles O29: only `READ` with enough bits and `ALIGN` answer with a value, and both leave the source just
past the last bit delivered or discarded. -/
theorem pullsAreLazy : Obligations.PullsAreLazy := by
  intro i s t v hinv hf he hfl hv
  rcases exec_cases i s with ⟨-, he'⟩ | ⟨hf', -⟩ | ⟨n, -, -, -, -, he'⟩ | ⟨n, -, hw, -, -, he'⟩ |
    ⟨-, -, -, he'⟩
  · rw [he'] at he; cases he
    simp [State.raiseBadRequest_eq] at hv
  · simp [hf] at hf'
  · rw [he'] at he; cases he
    simp at hfl
  · rw [he'] at he; cases he
    rcases Nat.lt_or_ge (8 * s.src.length) (s.streamPos + countOperand n) with hlen | hlen
    · rw [readBits_short hinv hf (countOperand_le hw) hlen] at hv
      cases hv
    · rw [readBits_enough hinv hf (countOperand_le hw) hlen]
      show (s.streamPos + countOperand n + 7) / 8 = (s.consumed + countOperand n + s.discarded + 7) / 8
      simp only [State.streamPos, Nat.add_right_comm]
  · rw [he'] at he; cases he
    have hp := hinv.position hf
    show s.srcPos = (s.consumed + (s.discarded + s.bitcnt.toNat) + 7) / 8
    omega

/-- A `READ` counts bits as consumed only when it delivers them, and never discards any (R80). -/
theorem exec_read_counters {n : BitVec 5} {s t : State} (he : exec (.read n) s = .next t) :
    t.discarded = s.discarded ∧
      (t.consumed = s.consumed ∨ t.consumed = s.consumed + n.toNat ∧ ∃ v, t.rsp = some (.ok v)) := by
  rcases exec_cases (.read n) s with ⟨-, he'⟩ | ⟨-, -, -, he'⟩ | ⟨m, -, -, -, -, he'⟩ | ⟨m, hm, hw, -, -, he'⟩ |
    ⟨hi, -⟩
  · rw [he'] at he; cases he
    exact ⟨rfl, .inl rfl⟩
  · rw [he'] at he; cases he
    exact ⟨rfl, .inl rfl⟩
  · rw [he'] at he; cases he
    exact ⟨rfl, .inl rfl⟩
  · rw [he'] at he; cases he
    cases hm
    refine ⟨by rw [readBits_frame], ?_⟩
    rcases readBits_cases (countOperand_le hw) s with ⟨v, hv, -, -, hc, -⟩ | ⟨-, -, hc, -⟩
    · exact .inr ⟨hc, v, hv⟩
    · exact .inl hc
  · cases hi

/-- `ALIGN` touches neither the source nor what was delivered (R84). -/
theorem exec_align_frame {s t : State} (he : exec .align s = .next t) :
    t.srcPos = s.srcPos ∧ t.delays = s.delays ∧ t.consumed = s.consumed ∧ t.freeCtr = s.freeCtr := by
  rcases exec_cases .align s with ⟨-, he'⟩ | ⟨-, -, -, he'⟩ | ⟨n, hi, -⟩ | ⟨n, hi, -⟩ | ⟨-, -, -, he'⟩
  · rw [he'] at he; cases he
    exact ⟨rfl, rfl, rfl, rfl⟩
  · rw [he'] at he; cases he
    exact ⟨rfl, rfl, rfl, rfl⟩
  · cases hi
  · cases hi
  · rw [he'] at he; cases he
    exact ⟨rfl, rfl, rfl, rfl⟩

/-- Settles O32: `exec_frame` for both commands, and each command's own frame. -/
theorem commandsLeaveTheRestAlone : Obligations.CommandsLeaveTheRestAlone :=
  ⟨fun _ _ _ => exec_frame, fun _ _ _ => exec_read_counters, fun _ _ => exec_align_frame⟩

/-! ## The buffer a failure leaves -/

/-- The same reader with another buffer. -/
def State.withBuffer (s : State) (b : BitVec Config.bitbufWidth) (c : BitVec Config.bitcntWidth) : State :=
  { s with bitbuf := b, bitcnt := c }

/-- `f` keeps the reader `s` failed, and neither reads its buffer nor writes it (R89(c)). -/
def BufferBlind (f : State → Host.Outcome State Fault Refusal) (s : State) : Prop :=
  ∃ t : State, t.failed = true ∧ ∀ b c, f (s.withBuffer b c) = .next (t.withBuffer b c)

theorem BufferBlind.of_eq {f g : State → Host.Outcome State Fault Refusal} {s s' : State} (h : BufferBlind f s')
    (heq : ∀ b c, g (s.withBuffer b c) = f (s'.withBuffer b c)) : BufferBlind g s := by
  obtain ⟨t, ht, hf⟩ := h
  exact ⟨t, ht, fun b c => (heq b c).trans (hf b c)⟩

/-- An answer goes to the port and to `failed`, which a failed reader has set already (R22). -/
theorem respond_bufferBlind {s : State} (hf : s.failed = true) (r : Response) :
    BufferBlind (fun u => .next (u.respond r)) s :=
  ⟨s.respond r, by rw [State.respond_of_failed hf]; exact hf, fun _ _ => rfl⟩

/-- Every command of a failed reader answers a failure chosen by the command and the hardware alone
(60_exceptions.md R141, R143). -/
theorem exec_of_failed (i : Instr) (ap : Bool) : ∃ r, ∀ s : State, s.failed = true → s.alignPresent = ap →
    exec i s = .next (s.respond r) := by
  cases i with
  | read n =>
    cases hw : Instr.wellFormed (.read n) with
    | false => exact ⟨.badRequest, fun s _ _ => exec_read_reserved hw⟩
    | true => exact ⟨.endOfInput, fun s hf _ => exec_read_failed hw hf⟩
  | align =>
    cases ap with
    | false => exact ⟨.badRequest, fun s _ ha => exec_align_absent ha⟩
    | true => exact ⟨.endOfInput, fun s hf ha => exec_align_failed ha hf⟩

theorem exec_bufferBlind (i : Instr) {s : State} (hf : s.failed = true) : BufferBlind (exec i) s := by
  obtain ⟨r, hr⟩ := exec_of_failed i s.alignPresent
  exact (respond_bufferBlind hf r).of_eq fun b c => hr (s.withBuffer b c) hf rfl

/-- A failed reader answers a command alike, whatever its buffer holds. -/
theorem exec_withBuffer {i : Instr} {s t : State} (hf : s.failed = true) (he : exec i s = .next t)
    (b : BitVec Config.bitbufWidth) (c : BitVec Config.bitcntWidth) :
    exec i (s.withBuffer b c) = .next (t.withBuffer b c) := by
  obtain ⟨u, -, hblind⟩ := exec_bufferBlind i hf
  cases he.symm.trans (hblind s.bitbuf s.bitcnt)
  exact hblind b c

/-- The failure law's condition: `READ n` meets the end just when the bits are not there (R89). -/
theorem readBits_endOfInput_iff {s : State} (h : s.Inv) (hf : s.failed = false) {n : Nat} (hn : n ≤ 16) :
    (readBits n s).rsp = some .endOfInput ↔ 8 * s.src.length < s.streamPos + n := by
  refine ⟨fun hend => ?_, fun hlen => by rw [readBits_short h hf hn hlen]⟩
  by_contra hlen
  rw [readBits_enough h hf hn (Nat.le_of_not_lt hlen)] at hend
  cases hend

/-- Settles O30: `readBits_short` is the failing end, and no command of the failed reader reads the buffer it
leaves. -/
theorem readFailsExactlyPastTheEnd : Obligations.ReadFailsExactlyPastTheEnd := by
  intro n s hinv hf hn hready
  have hexec := exec_read_ready (wellFormed_read_of_le hn) hf hready
  have hiff := readBits_endOfInput_iff hinv hf hn
  refine ⟨⟨fun ⟨t, he, hrsp⟩ => ?_, fun hlen => ⟨_, hexec, hiff.mpr hlen⟩⟩, fun hlen => ?_⟩
  · cases hexec.symm.trans he
    exact hiff.mp hrsp
  · have hshort := readBits_short hinv hf hn hlen
    exact ⟨_, _, hexec.trans (congrArg _ hshort), rfl, fun i t u b c ht he => exec_withBuffer ht he b c⟩

theorem accept_of_reserved {w : Byte} {s : State} {why : Reserved}
    (hd : decode s.alignPresent w = .reserved why) : accept w s = .next s.raiseBadRequest := by
  simp [accept, hd]

theorem accept_bufferBlind (w : Byte) {s : State} (hf : s.failed = true) : BufferBlind (accept w) s := by
  cases hd : decode s.alignPresent w with
  | command i => exact (exec_bufferBlind i hf).of_eq fun _ _ => accept_of_command hd
  | reserved why => exact (respond_bufferBlind hf .badRequest).of_eq fun _ _ => accept_of_reserved hd

theorem continueInFlight_of_none {s : State} (h : s.inFlight = none) : continueInFlight s = .next s := by
  rw [continueInFlight, h]

theorem continueInFlight_bufferBlind {s : State} (hf : s.failed = true) : BufferBlind continueInFlight s := by
  cases hi : s.inFlight with
  | none => exact ⟨s, hf, fun _ _ => continueInFlight_of_none hi⟩
  | some i => exact (exec_bufferBlind i hf).of_eq fun _ _ => continueInFlight_of_inFlight hi

theorem step_of_idle {s : State} {rest : List Event} (he : s.env = .idle :: rest) :
    step s = continueInFlight { s with env := rest } := by
  simp [step, portStep, he]

theorem step_of_rst {s : State} {src : List Byte} {ds : List Delay} {rest : List Event}
    (he : s.env = .rst src ds :: rest) : step s = .next (State.restart src ds { s with env := rest }) := by
  simp [step, portStep, he]

theorem step_of_cmd_of_not_ready {s : State} {w : Byte} {rest : List Event} (he : s.env = .cmd w :: rest)
    (hready : s.cmdReady = false) : step s = continueInFlight s := by
  simp [step, portStep, he, hready]

theorem step_of_take_of_none {s : State} {rest : List Event} (he : s.env = .take :: rest)
    (hr : s.rsp = none) : step s = continueInFlight s := by
  simp [step, portStep, he, hr]

/-- A step of a failed reader does not see the buffer, and a reset forgets it (60_exceptions.md R143). -/
theorem step_of_failed {s : State} (hf : s.failed = true) :
    BufferBlind step s ∨ ∃ t, ∀ b c, step (s.withBuffer b c) = .next t := by
  have hcontinue : ∀ env, BufferBlind continueInFlight { s with env := env } := fun _ =>
    continueInFlight_bufferBlind hf
  cases he : s.env with
  | nil => exact .inl ((continueInFlight_bufferBlind hf).of_eq fun _ _ => step_of_env_nil he)
  | cons e rest =>
    cases e with
    | idle => exact .inl ((hcontinue rest).of_eq fun _ _ => step_of_idle he)
    | rst src ds => exact .inr ⟨State.restart src ds { s with env := rest }, fun _ _ => step_of_rst he⟩
    | cmd w =>
      cases hready : s.cmdReady with
      | true =>
        have haccept : BufferBlind (accept w) { s with env := rest } := accept_bufferBlind w hf
        exact .inl (haccept.of_eq fun _ _ => step_of_cmd_of_ready he hready)
      | false =>
        exact .inl ((continueInFlight_bufferBlind hf).of_eq fun _ _ => step_of_cmd_of_not_ready he hready)
    | take =>
      cases hr : s.rsp with
      | none => exact .inl ((continueInFlight_bufferBlind hf).of_eq fun _ _ => step_of_take_of_none he hr)
      | some r =>
        exact .inl ⟨State.takeResponse r { s with env := rest }, hf, fun _ _ => step_of_take he hr⟩

theorem exec_eq_next (i : Instr) (s : State) : ∃ t, exec i s = .next t := by
  rcases exec_cases i s with ⟨-, he⟩ | ⟨-, -, -, he⟩ | ⟨n, -, -, -, -, he⟩ | ⟨n, -, -, -, -, he⟩ |
    ⟨-, -, -, he⟩ <;> exact ⟨_, he⟩

theorem continueInFlight_eq_next (s : State) : ∃ t, continueInFlight s = .next t := by
  cases hi : s.inFlight with
  | none => exact ⟨s, continueInFlight_of_none hi⟩
  | some i => exact continueInFlight_of_inFlight hi ▸ exec_eq_next i s

theorem accept_eq_next (w : Byte) (s : State) : ∃ t, accept w s = .next t := by
  rcases accept_cases w s with ⟨i, -, ha⟩ | ⟨why, -, ha⟩
  · exact ha ▸ exec_eq_next i s
  · exact ⟨_, ha⟩

/-- The unit never stops (logs 1, 2). -/
theorem step_eq_next (s : State) : ∃ t, step s = .next t := by
  rcases step_cases s with ⟨src, ds, rest, -, hs⟩ | ⟨r, rest, -, -, hs⟩ | ⟨w, rest, -, -, hs⟩ |
    ⟨rest, -, -, -, -, hs⟩
  · exact ⟨_, hs⟩
  · exact ⟨_, hs⟩
  · exact hs ▸ accept_eq_next w _
  · exact hs ▸ continueInFlight_eq_next _

theorem run_eq_next : ∀ (k : Nat) (s : State), ∃ t, core.run k s = .next t
  | 0, s => ⟨s, rfl⟩
  | k + 1, s => by
    obtain ⟨t, hs⟩ := step_eq_next s
    exact run_succ_of_step k hs ▸ run_eq_next k t

/-- Runs of a failed reader from any two buffers end in states that differ in the buffer at most. -/
theorem run_withBuffer : ∀ (k : Nat) {s : State}, s.failed = true →
    ∃ t : State, ∀ b c, ∃ b' c', core.run k (s.withBuffer b c) = .next (t.withBuffer b' c')
  | 0, s, _ => ⟨s, fun b c => ⟨b, c, rfl⟩⟩
  | k + 1, s, hf => by
    rcases step_of_failed hf with ⟨t, ht, hstep⟩ | ⟨t, hstep⟩
    · obtain ⟨u, hrun⟩ := run_withBuffer k ht
      exact ⟨u, fun b c => run_succ_of_step k (hstep b c) ▸ hrun b c⟩
    · obtain ⟨u, hrun⟩ := run_eq_next k t
      exact ⟨u, fun b c => ⟨u.bitbuf, u.bitcnt, (run_succ_of_step k (hstep b c)).trans hrun⟩⟩

/-- Settles O36: by induction on the run; nothing observed is the buffer. -/
theorem bufferAfterFailureIsNeverObserved : Obligations.BufferAfterFailureIsNeverObserved := by
  intro s b c k hf
  obtain ⟨t, hrun⟩ := run_withBuffer k hf
  obtain ⟨_, _, hs⟩ := hrun s.bitbuf s.bitcnt
  obtain ⟨_, _, hb⟩ := hrun b c
  exact ⟨_, _, hs, hb, rfl, rfl, rfl, rfl, rfl, rfl⟩

end Sys2Proof.Machine
end

section
/-!
PROOF. How a client's operation can end, on any reader that has not failed (41_client_requests.md R120, R128;
log 18): the same four facts for a `READ`, for every handler and for a whole session.
-/

namespace Sys2Proof.Machine

/-! ## A client's READ -/

theorem never_mem_take_tickDelays : ∀ {ds : List Delay} {m : Nat},
    Delay.never ∈ ds.take m → Delay.never ∈ (tickDelays ds).take m
  | [], _, h => by simp at h
  | _ :: _, 0, h => by simp at h
  | .never :: _, _ + 1, _ => List.mem_cons_self
  | .after 0 :: ds, m + 1, h => by
    have htail : Delay.never ∈ ds.take m := by simpa using h
    exact List.mem_cons_of_mem _ (never_mem_take_tickDelays htail)
  | .after (_ + 1) :: ds, m + 1, h => by
    have htail : Delay.never ∈ ds.take m := by simpa using h
    exact List.mem_cons_of_mem _ htail

/-- A `READ` one of whose pulls is never answered is held in every step (20_memory.md R44). -/
theorem await_read_stuck {n : BitVec 5} (hw : Instr.wellFormed (.read n) = true) :
    ∀ (k : Nat) {s : State}, s.failed = false →
      Delay.never ∈ s.delays.take (s.pullsMade (countOperand n)) → ∃ t, await (.read n) k s = .stuck t
  | 0, s, _, _ => ⟨s, rfl⟩
  | k + 1, s, hf, hnever => by
    have hsilent : s.sourceSilent (countOperand n) = true :=
      List.any_eq_true.mpr ⟨.never, hnever, rfl⟩
    have hlater : ∃ t, await (.read n) k (s.hold (.read n)) = .stuck t :=
      await_read_stuck hw k hf (never_mem_take_tickDelays hnever)
    simpa only [await, exec_read_silent hw hf hsilent, State.hold_inFlight] using hlater

/-- Both ends of a client's `READ` on a reader that has not failed: one of its pulls is never answered, or it
is answered as `readBits` answers it. -/
theorem issue_read_cases {n : BitVec 5} (hw : Instr.wellFormed (.read n) = true) {s : State}
    (hf : s.failed = false) :
    (¬ s.SourceResponsive ∧ ∃ t, issue (.read n) s = .stuck t) ∨
    (∀ r, (readBits (countOperand n) s).rsp = some r →
      issue (.read n) s = .done r ((readBits (countOperand n) s).takeResponse r)) := by
  by_cases hnever : Delay.never ∈ s.delays.take (s.pullsMade (countOperand n))
  · exact .inl ⟨fun hresp => hresp (List.mem_of_mem_take hnever), await_read_stuck hw _ hf hnever⟩
  · exact .inr fun r hr => issue_read hw hf hr hnever

theorem readField_failed {n : Nat} (hn : n ≤ 16) {s : State} (hf : s.failed = true) :
    readField n s = .fail .endOfInput ((s.respond .endOfInput).takeResponse .endOfInput) := by
  rw [readField, issue_read_failed (wellFormed_read_ofNat hn) hf, Reply.andThen_done, valueOrFail]

/-! ## How an operation ends -/

/-- `t` is a reader of the session of `s` that has not failed and has at least `k` bits less to deliver. -/
structure State.ReadsOnTo (s t : State) (k : Nat) : Prop where
  healthy : t.failed = false
  bitsLeft : t.bitsLeft + k ≤ s.bitsLeft
  responsive : s.SourceResponsive → t.SourceResponsive
  inv : s.Inv → t.Inv
  src : t.src = s.src

theorem State.ReadsOnTo.refl {s : State} (hf : s.failed = false) : s.ReadsOnTo s 0 :=
  ⟨hf, le_rfl, id, id, rfl⟩

theorem State.ReadsOnTo.trans {s t u : State} {j k : Nat} (h : s.ReadsOnTo t j) (h' : t.ReadsOnTo u k) :
    s.ReadsOnTo u (j + k) where
  healthy := h'.healthy
  bitsLeft := by have := h.bitsLeft; have := h'.bitsLeft; omega
  responsive hs := h'.responsive (h.responsive hs)
  inv hs := h'.inv (h.inv hs)
  src := h'.src.trans h.src

/-- An operation begun on `s` ends well: with a result that `P` holds of, and the reader at least `k` bits
further on; or with a failure other than `BadRequest`, the reader failed just when it is `EndOfInput`; or
stuck, on a source that does not answer; and never at the model's own bound (R120, R128; log 18). -/
inductive Reply.EndsWell {α : Type} (s : State) (k : Nat) (P : α → Prop) : Reply α → Prop
  | done {a : α} {t : State} (hon : s.ReadsOnTo t k) (ha : P a) : EndsWell s k P (.done a t)
  | fail {e : ClientError} {t : State} (hbad : e ≠ .badRequest) (hend : t.failed = true ↔ e = .endOfInput) :
      EndsWell s k P (.fail e t)
  | stuck {t : State} (hsilent : ¬ s.SourceResponsive) : EndsWell s k P (.stuck t)

section EndsWell

variable {α β : Type} {s t : State} {j k : Nat} {P Q : α → Prop} {R : β → Prop} {a : α} {r : Reply α}

theorem Reply.endsWell_done (hf : s.failed = false) (ha : P a) : (Reply.done a s).EndsWell s 0 P :=
  .done (.refl hf) ha

/-- A failure of the client's own leaves the reader as it was. -/
theorem Reply.endsWell_fail (hf : s.failed = false) {e : ClientError} (hbad : e ≠ .badRequest)
    (hend : e ≠ .endOfInput) : (Reply.fail e s : Reply α).EndsWell t k P :=
  .fail hbad (by simp [hf, hend])

theorem Reply.EndsWell.mono (h : r.EndsWell s k P) (hk : j ≤ k) (hP : ∀ a, P a → Q a) : r.EndsWell s j Q := by
  cases h with
  | done hon ha =>
    exact .done { hon with bitsLeft := (Nat.add_le_add_left hk _).trans hon.bitsLeft } (hP _ ha)
  | fail hbad hend => exact .fail hbad hend
  | stuck hsilent => exact .stuck hsilent

/-- What ends well goes on from a later reader as from an earlier one. -/
theorem Reply.EndsWell.after (h : r.EndsWell t k P) (hon : s.ReadsOnTo t j) : r.EndsWell s (j + k) P := by
  cases h with
  | done hon' ha => exact .done (hon.trans hon') ha
  | fail hbad hend => exact .fail hbad hend
  | stuck hsilent => exact .stuck fun hs => hsilent (hon.responsive hs)

/-- Two operations one after the other end well if both do. -/
theorem Reply.EndsWell.andThen (h : r.EndsWell s j P) {f : α → State → Reply β}
    (hf : ∀ a t, s.ReadsOnTo t j → P a → (f a t).EndsWell t k R) : (r.andThen f).EndsWell s (j + k) R := by
  cases h with
  | done hon ha => exact (hf _ _ hon ha).after hon
  | fail hbad hend => exact .fail hbad hend
  | stuck hsilent => exact .stuck hsilent

/-- The same where the bits read do not matter afterwards. -/
theorem Reply.EndsWell.seq (h : r.EndsWell s j P) {f : α → State → Reply β}
    (hf : ∀ a t, s.ReadsOnTo t j → P a → (f a t).EndsWell t 0 R) : (r.andThen f).EndsWell s 0 R :=
  (h.andThen hf).mono (Nat.zero_le _) fun _ => id

theorem Reply.endsWell_ite {c : Prop} [Decidable c] {r r' : Reply α} (h : c → r.EndsWell s k P)
    (h' : ¬ c → r'.EndsWell s k P) : (if c then r else r').EndsWell s k P := by
  split_ifs with hc
  · exact h hc
  · exact h' hc

end EndsWell

/-! ## The reader's commands end well -/

/-- A `READ` that delivers its value takes its bits off those left, whatever state it began in. -/
theorem readBits_bitsLeft {n : Nat} {s : State}
    (hcnt : (readBits n s).bitcnt.toNat + n + 8 * s.srcPos = s.bitcnt.toNat + 8 * (readBits n s).srcPos)
    (hpos : s.srcPos ≤ (readBits n s).srcPos) : (readBits n s).bitsLeft + n ≤ s.bitsLeft := by
  have hend := readBits_srcPos_le n s
  have hsrc : (readBits n s).src = s.src := by rw [readBits_frame]
  simp only [State.bitsLeft, hsrc]
  omega

/-- A `READ` answered with a value leaves a reader of the same session. -/
theorem readBits_readsOnTo {n : Nat} (hn : n ≤ 16) {s : State} (hf : s.failed = false)
    (hhealthy : (readBits n s).failed = s.failed) (hleft : (readBits n s).bitsLeft + n ≤ s.bitsLeft)
    (r : Response) : s.ReadsOnTo ((readBits n s).takeResponse r) n where
  healthy := hhealthy.trans hf
  bitsLeft := hleft
  responsive hs hnever := hs (List.mem_of_mem_drop (readBits_delays hn s ▸ hnever))
  inv hinv := (hinv.readBits hf hn).takeResponse r
  src := (readBits_goesOn hn s).src

/-- A client's field of `n` bits: the one place where an operation's end is the reader's own (R120). -/
theorem readField_endsWell {n : Nat} (hn : n ≤ 16) {s : State} (hf : s.failed = false) :
    (readField n s).EndsWell s n (· < 2 ^ n) := by
  have hcount := countOperand_ofNat hn
  rcases issue_read_cases (wellFormed_read_ofNat hn) hf with ⟨hsilent, t, hstuck⟩ | hanswer
  · rw [readField, hstuck]
    exact .stuck hsilent
  · rw [hcount] at hanswer
    rcases readBits_cases hn s with ⟨v, hv, hlt, hhealthy, -, -, hcnt, hpos, -⟩ | ⟨hend, hfailed, -⟩
    · rw [readField, hanswer _ hv]
      exact .done (readBits_readsOnTo hn hf hhealthy (readBits_bitsLeft hcnt hpos) _) hlt
    · rw [readField, hanswer _ hend]
      exact .fail (by decide) (by simpa using hfailed)

/-- A field that is read fits its width, on any reader. -/
theorem readField_lt {n v : Nat} (hn : n ≤ 16) {s t : State} (h : readField n s = .done v t) : v < 2 ^ n := by
  cases hf : s.failed with
  | true => rw [readField_failed hn hf] at h; cases h
  | false =>
    have hends := readField_endsWell hn hf
    rw [h] at hends
    cases hends with
    | done _ hlt => exact hlt

theorem issue_align {s : State} (ha : s.alignPresent = true) (hf : s.failed = false) :
    issue .align s = .done (.ok 0) ((s.discardBits.respond (.ok 0)).takeResponse (.ok 0)) := by
  simp [issue, State.patience, await, exec_align_ready ha hf]

theorem align_endsWell {s : State} (ha : s.alignPresent = true) (hf : s.failed = false) :
    ((issue .align s).andThen valueOrFail).EndsWell s 0 fun _ => True := by
  rw [issue_align ha hf]
  refine .done ⟨(failedAfter_ok _ _).trans hf, ?_, id, fun h => ?_, rfl⟩ trivial
  · exact Nat.le_add_right _ _
  · exact (h.discardBits_respond hf ha).takeResponse _

end Sys2Proof.Machine
end

section
/-!
PROOF. Table construction (41_client_requests.md R105 to R107): when it fails, and in which order it lists the
symbols.
-/

namespace Sys2Proof.Machine

/-! ## Over-subscription -/

/-- How many of the `2^k` words of `k` bits the codes of lengths 1 to `k` take up, where `count j` symbols
have length `j + 1`. -/
def wordsTaken (count : Nat → Nat) (k : Nat) : Nat :=
  ((List.range k).map fun j => count j * 2 ^ (k - (j + 1))).sum

/-- With one bit more, each word taken is two, and the codes of the new length take one each. -/
theorem wordsTaken_succ (count : Nat → Nat) (k : Nat) :
    wordsTaken count (k + 1) = 2 * wordsTaken count k + count k := by
  have hdouble : ((List.range k).map fun j => count j * 2 ^ (k + 1 - (j + 1))) =
      (List.range k).map fun j => 2 * (count j * 2 ^ (k - (j + 1))) := by
    refine List.map_congr_left fun j hj => ?_
    have hexp : k + 1 - (j + 1) = k - (j + 1) + 1 := by have := List.mem_range.mp hj; omega
    rw [hexp, pow_succ]; ring
  rw [wordsTaken, List.range_succ, List.map_append, List.sum_append, hdouble, List.sum_map_mul_left]
  simp [wordsTaken]

/-- Without the codes of length 1, each of which takes half a word's continuations, the lengths move up. -/
theorem wordsTaken_succ' (count : Nat → Nat) (k : Nat) :
    wordsTaken count (k + 1) = count 0 * 2 ^ k + wordsTaken (fun j => count (j + 1)) k := by
  simp [wordsTaken, List.range_succ_eq_map, Function.comp_def]

/-- `left` after each length is what the lengths so far leave of it (R106). -/
theorem validateCounts_eq_none_iff : ∀ (n : Nat) (count : Nat → Nat) (left : Int), 0 ≤ left →
    (validateCounts ((List.range n).map count) left = none ↔
      ∃ k, k ≤ n ∧ left * 2 ^ k < wordsTaken count k)
  | 0, count, left, hleft => by
    have hnone : ∀ k, k ≤ 0 → ¬ left * 2 ^ k < wordsTaken count k := by
      rintro k hk hlt
      obtain rfl : k = 0 := by omega
      simp [wordsTaken] at hlt
      omega
    simpa [validateCounts] using hnone
  | n + 1, count, left, hleft => by
    have hshift : ∀ k, (left * 2 ^ (k + 1) < wordsTaken count (k + 1) ↔
        (2 * left - count 0) * 2 ^ k < wordsTaken (fun j => count (j + 1)) k) := fun k => by
      rw [wordsTaken_succ', pow_succ]; push_cast; constructor <;> intro h <;> linarith
    have hsplit : (∃ k, k ≤ n + 1 ∧ left * 2 ^ k < wordsTaken count k) ↔
        ∃ k, k ≤ n ∧ (2 * left - count 0) * 2 ^ k < wordsTaken (fun j => count (j + 1)) k := by
      constructor
      · rintro ⟨k, hk, hlt⟩
        cases k with
        | zero => simp [wordsTaken] at hlt; omega
        | succ k => exact ⟨k, by omega, (hshift k).mp hlt⟩
      · rintro ⟨k, hk, hlt⟩
        exact ⟨k + 1, by omega, (hshift k).mpr hlt⟩
    rw [hsplit, List.range_succ_eq_map, List.map_cons, List.map_map, validateCounts]
    by_cases hneg : 2 * left - count 0 < 0
    · rw [if_pos hneg]
      exact ⟨fun _ => ⟨0, n.zero_le, by simpa [wordsTaken] using hneg⟩, fun _ => rfl⟩
    · rw [if_neg hneg]
      exact validateCounts_eq_none_iff n _ _ (by omega)

/-- The counts of the lengths 1 to 15, the only ones that table construction and the walk read (R105). -/
theorem countLengths_drop_one (lengths : List Nat) :
    (countLengths lengths).drop 1 = (List.range 15).map fun j => lengths.count (j + 1) := rfl

theorem buildTable_eq_none_iff (lengths : List Nat) :
    buildTable lengths = none ↔ validateCounts ((countLengths lengths).drop 1) 1 = none := by
  rw [buildTable]
  cases validateCounts ((countLengths lengths).drop 1) 1 <;> simp

/-- What is built, where something is (R107). -/
theorem eq_of_buildTable {lengths : List Nat} {t : HuffmanTable} (h : buildTable lengths = some t) :
    t.counts = countLengths lengths ∧
    t.symbols = placeSymbols lengths 0 (0 :: prefixSums ((countLengths lengths).drop 1) 0)
      (List.replicate ((countLengths lengths).drop 1).sum 0) := by
  rw [buildTable] at h
  cases hv : validateCounts ((countLengths lengths).drop 1) 1 <;> simp only [hv] at h <;> cases h
  exact ⟨rfl, rfl⟩

/-- Settles O43: `validateCounts_eq_none_iff` for the 15 counts, from `left = 1`. -/
theorem tableFailsExactlyWhenOversubscribed : Obligations.TableFailsExactlyWhenOversubscribed := by
  intro lengths
  rw [buildTable_eq_none_iff, countLengths_drop_one, validateCounts_eq_none_iff _ _ _ (by decide)]
  refine exists_congr fun k => and_congr_right fun _ => ?_
  rw [one_mul]
  exact_mod_cast Iff.rfl

/-- In a table that is built, the codes up to any length have room (R106). -/
theorem wordsTaken_le_of_buildTable {lengths : List Nat} {t : HuffmanTable}
    (h : buildTable lengths = some t) {k : Nat} (hk : k ≤ 15) :
    wordsTaken (fun j => lengths.count (j + 1)) k ≤ 2 ^ k := by
  by_contra hlt
  have hnone := (tableFailsExactlyWhenOversubscribed lengths).mpr ⟨k, hk, Nat.lt_of_not_le hlt⟩
  rw [hnone] at h
  cases h

/-! ## The symbols' places -/

/-- The symbols whose code length is `l`, in ascending order. -/
def symbolsOfLength (lengths : List Nat) (l : Nat) : List Nat :=
  (List.range lengths.length).filter fun sym => lengths.getD sym 0 = l

/-- Where the symbols of length `l + 1` begin (R107): after those of all shorter lengths. -/
def symbolOffset (lengths : List Nat) (l : Nat) : Nat :=
  ((List.range l).map fun j => lengths.count (j + 1)).sum

theorem symbolsOfLength_snoc (pre : List Nat) (x l : Nat) :
    symbolsOfLength (pre ++ [x]) l = symbolsOfLength pre l ++ if x = l then [pre.length] else [] := by
  have hbefore : ((List.range pre.length).filter fun sym => (pre ++ [x]).getD sym 0 = l) =
      symbolsOfLength pre l := List.filter_congr fun sym hsym => by
    rw [List.getD_append _ _ _ _ (List.mem_range.mp hsym)]
  rw [symbolsOfLength, List.length_append, List.length_singleton, List.range_succ, List.filter_append,
    hbefore]
  by_cases hx : x = l <;> simp [hx]

theorem length_symbolsOfLength (lengths : List Nat) (l : Nat) :
    (symbolsOfLength lengths l).length = lengths.count l := by
  induction lengths using List.reverseRecOn with
  | nil => rfl
  | append_singleton pre x ih =>
    rw [symbolsOfLength_snoc, List.length_append, ih, List.count_append, List.count_singleton]
    by_cases hx : x = l <;> simp [hx]

/-- More lengths add symbols after those that are there. -/
theorem symbolsOfLength_prefix_append (pre ls : List Nat) (l : Nat) :
    symbolsOfLength pre l <+: symbolsOfLength (pre ++ ls) l := by
  induction ls using List.reverseRecOn with
  | nil => simp
  | append_singleton ls x ih =>
    rw [← List.append_assoc, symbolsOfLength_snoc]
    exact ih.trans (List.prefix_append _ _)

/-- The `i`-th entry of the `l`-th of several blocks in a row. -/
theorem getElem?_flatMap_range {f : Nat → List Nat} {n l i : Nat} (hl : l < n) (hi : i < (f l).length) :
    ((List.range n).flatMap f)[((List.range l).flatMap f).length + i]? = (f l)[i]? := by
  obtain ⟨m, rfl⟩ : ∃ m, n = l + (m + 1) := ⟨n - l - 1, by omega⟩
  rw [List.range_add, List.flatMap_append, List.getElem?_append_right (Nat.le_add_right _ _),
    Nat.add_sub_cancel_left, List.range_succ_eq_map, List.map_cons, List.flatMap_cons,
    List.getElem?_append_left (by simpa using hi), Nat.add_zero]

/-- To write the entry after `a` in the `l`-th of several blocks is to change that block. -/
theorem set_flatMap_range {f g : Nat → List Nat} {n l x y : Nat} {a b : List Nat} (hl : l < n)
    (hother : ∀ j, j ≠ l → f j = g j) (hf : f l = a ++ y :: b) (hg : g l = a ++ x :: b) :
    ((List.range n).flatMap f).set (((List.range l).flatMap f).length + a.length) x =
      (List.range n).flatMap g := by
  obtain ⟨m, rfl⟩ : ∃ m, n = l + (m + 1) := ⟨n - l - 1, by omega⟩
  have hbefore : (List.range l).flatMap f = (List.range l).flatMap g :=
    List.flatMap_congr fun j hj => hother j (by have := List.mem_range.mp hj; omega)
  have hafter : (((List.range m).map Nat.succ).map (l + ·)).flatMap f =
      (((List.range m).map Nat.succ).map (l + ·)).flatMap g :=
    List.flatMap_congr fun j hj => hother j (by
      obtain ⟨i, hi, rfl⟩ := List.mem_map.mp hj
      obtain ⟨k, -, rfl⟩ := List.mem_map.mp hi
      omega)
  rw [List.range_add, List.flatMap_append, List.flatMap_append, List.range_succ_eq_map, List.map_cons,
    List.flatMap_cons, List.flatMap_cons, Nat.add_zero, hf, hg, ← hbefore, hafter,
    List.set_append_right _ _ (Nat.le_add_right _ _), Nat.add_sub_cancel_left]
  simp

/-- The symbols placed once the lengths `pre` are done and `ls` are to come: each length's block holds its
symbols among the first, and room for those to come. -/
def placedSymbols (pre ls : List Nat) : List Nat :=
  (List.range 15).flatMap fun l => symbolsOfLength pre (l + 1) ++ List.replicate (ls.count (l + 1)) 0

/-- Each length's next free place, once the lengths `pre` of all `lengths` are done (R107). -/
def NextFree (lengths pre offs : List Nat) : Prop :=
  ∀ l, l < 15 → offs[l + 1]? = some (symbolOffset lengths l + pre.count (l + 1))

theorem length_flatMap_placed (pre ls : List Nat) (l : Nat) :
    ((List.range l).flatMap fun l =>
      symbolsOfLength pre (l + 1) ++ List.replicate (ls.count (l + 1)) 0).length =
    symbolOffset (pre ++ ls) l := by
  simp [symbolOffset, List.length_flatMap, length_symbolsOfLength]

/-- A symbol of length 0 has no place. -/
theorem placedSymbols_zero (pre ls : List Nat) : placedSymbols (pre ++ [0]) ls = placedSymbols pre (0 :: ls) := by
  simp [placedSymbols, symbolsOfLength_snoc]

/-- A symbol of length `l + 1` goes to the next free place of its length. -/
theorem placedSymbols_succ (pre ls : List Nat) {l : Nat} (hl : l < 15) :
    (placedSymbols pre ((l + 1) :: ls)).set (symbolOffset (pre ++ (l + 1) :: ls) l + pre.count (l + 1))
      pre.length = placedSymbols (pre ++ [l + 1]) ls := by
  rw [← length_flatMap_placed, ← length_symbolsOfLength pre (l + 1)]
  refine set_flatMap_range (y := 0) (b := List.replicate (ls.count (l + 1)) 0) hl (fun j hj => ?_) ?_ ?_
  · simp [symbolsOfLength_snoc, hj.symm]
  · simp [List.replicate_succ]
  · simp [symbolsOfLength_snoc]

theorem NextFree.zero {lengths pre offs : List Nat} (h : NextFree lengths pre offs) :
    NextFree lengths (pre ++ [0]) offs := fun l hl => by
  simpa [List.count_append, List.count_singleton] using h l hl

theorem NextFree.succ {lengths pre offs : List Nat} (h : NextFree lengths pre offs) {l : Nat} (hl : l < 15) :
    NextFree lengths (pre ++ [l + 1]) (offs.set (l + 1) (offs.getD (l + 1) 0 + 1)) := fun j hj => by
  by_cases hjl : j = l
  · subst hjl
    obtain ⟨hlt, -⟩ := List.getElem?_eq_some_iff.mp (h j hj)
    rw [List.getElem?_set_self hlt, List.getD_eq_getElem?_getD, h j hj]
    simp [List.count_append, Nat.add_assoc]
  · rw [List.getElem?_set_ne (by omega), h j hj]
    simp [List.count_append, Ne.symm hjl]

theorem placeSymbols_succ_cons (l sym : Nat) (ls offs symbols : List Nat) :
    placeSymbols ((l + 1) :: ls) sym offs symbols =
      placeSymbols ls (sym + 1) (offs.set (l + 1) (offs.getD (l + 1) 0 + 1))
        (symbols.set (offs.getD (l + 1) 0) sym) := rfl

/-- Step 4 of R107 puts every symbol to come into its place. -/
theorem placeSymbols_eq : ∀ (ls pre offs : List Nat), (∀ l ∈ ls, l ≤ 15) → NextFree (pre ++ ls) pre offs →
    placeSymbols ls pre.length offs (placedSymbols pre ls) = placedSymbols (pre ++ ls) []
  | [], pre, offs, _, _ => by rw [placeSymbols, List.append_nil]
  | x :: ls, pre, offs, hle, hfree => by
    obtain ⟨hx, hls⟩ := List.forall_mem_cons.mp hle
    have hsplit : pre ++ x :: ls = (pre ++ [x]) ++ ls := by simp
    have hlen : pre.length + 1 = (pre ++ [x]).length := by simp
    cases x with
    | zero =>
      rw [placeSymbols, hlen, ← placedSymbols_zero, hsplit]
      exact placeSymbols_eq ls _ offs hls (hsplit ▸ hfree.zero)
    | succ l =>
      have hat : offs.getD (l + 1) 0 = symbolOffset (pre ++ (l + 1) :: ls) l + pre.count (l + 1) := by
        rw [List.getD_eq_getElem?_getD, hfree l hx, Option.getD_some]
      have hplaced : (placedSymbols pre ((l + 1) :: ls)).set (offs.getD (l + 1) 0) pre.length =
          placedSymbols (pre ++ [l + 1]) ls := by
        rw [hat, placedSymbols_succ pre ls hx]
      rw [placeSymbols_succ_cons, hplaced, hlen, hsplit]
      exact placeSymbols_eq ls _ _ hls (hsplit ▸ hfree.succ hx)

/-- The running sums of R107: each offset is that of the lengths before it. -/
theorem getElem?_prefixSums : ∀ (counts : List Nat) (start l : Nat), l < counts.length →
    (prefixSums counts start)[l]? = some (start + (counts.take l).sum)
  | _ :: _, start, 0, _ => by simp [prefixSums]
  | c :: cs, start, l + 1, hl => by
    have htail := getElem?_prefixSums cs (start + c) l (by simpa using hl)
    simpa [prefixSums, Nat.add_assoc] using htail

theorem nextFree_nil (lengths : List Nat) :
    NextFree lengths [] (0 :: prefixSums ((countLengths lengths).drop 1) 0) := fun l hl => by
  rw [countLengths_drop_one, List.getElem?_cons_succ, getElem?_prefixSums _ _ _ (by simpa using hl),
    ← List.map_take, List.take_range, Nat.min_eq_left hl.le]
  simp [symbolOffset]

/-- Before any symbol is placed there is room for all of them. -/
theorem placedSymbols_nil (lengths : List Nat) :
    placedSymbols [] lengths = List.replicate ((countLengths lengths).drop 1).sum 0 := by
  refine List.eq_replicate_iff.mpr ⟨?_, fun b hb => ?_⟩
  · rw [placedSymbols, length_flatMap_placed, countLengths_drop_one]; rfl
  · obtain ⟨l, -, hl⟩ := List.mem_flatMap.mp hb
    exact List.eq_of_mem_replicate hl

/-- The symbols of a table that is built: those of each length in turn. -/
theorem symbols_of_buildTable {lengths : List Nat} {t : HuffmanTable} (hle : ∀ l ∈ lengths, l ≤ 15)
    (h : buildTable lengths = some t) :
    t.symbols = (List.range 15).flatMap fun l => symbolsOfLength lengths (l + 1) := by
  rw [(eq_of_buildTable h).2, ← placedSymbols_nil]
  refine (placeSymbols_eq lengths [] _ hle (nextFree_nil lengths)).trans ?_
  simp [placedSymbols]

/-- Settles O44: the counts are `countLengths`, and the symbols stand as `symbols_of_buildTable` says. -/
theorem tableListsSymbolsCanonically : Obligations.TableListsSymbolsCanonically := by
  intro lengths t hle h
  refine ⟨fun l _ hl => ?_, symbols_of_buildTable hle h⟩
  have hmem : l < maxCodeLength + 1 := Nat.lt_succ_of_le hl
  rw [(eq_of_buildTable h).1, countLengths, List.getElem?_map, List.getElem?_range hmem, Option.map_some]

end Sys2Proof.Machine
end

section
/-!
PROOF. The walk of a table (41_client_requests.md R104, R108 to R110): the canonical codes, the bits of the
stream read as a code, and where a walk over them ends.
-/

namespace Sys2Proof.Machine

/-! ## Canonical codes -/

/-- One more than the last code of length `k`, if there is one: codes of `k` bits from here on are no symbol's
and begin no shorter code of one (R108). -/
def codesUpTo (lengths : List Nat) (k : Nat) : Nat := wordsTaken (fun j => lengths.count (j + 1)) k

theorem codesUpTo_succ (lengths : List Nat) (k : Nat) :
    codesUpTo lengths (k + 1) = 2 * codesUpTo lengths k + lengths.count (k + 1) :=
  wordsTaken_succ _ k

/-- The first code of a length follows the last one of the length before it, one bit longer (R108). -/
theorem firstCode_succ (lengths : List Nat) (k : Nat) :
    firstCode lengths (k + 1) = 2 * codesUpTo lengths k := by
  induction k with
  | zero => rfl
  | succ k ih => rw [firstCode, ih, codesUpTo_succ, Nat.shiftLeft_eq, pow_one, Nat.mul_comm]

theorem codesUpTo_mul_le (lengths : List Nat) (d k : Nat) :
    codesUpTo lengths d * 2 ^ k ≤ codesUpTo lengths (d + k) := by
  induction k with
  | zero => simp
  | succ k ih => rw [← Nat.add_assoc, codesUpTo_succ, pow_succ, ← Nat.mul_assoc]; omega

section Symbol

variable {lengths : List Nat} {sym l : Nat}

theorem canonicalCode_eq (hsym : lengths[sym]? = some (l + 1)) :
    canonicalCode lengths sym = 2 * codesUpTo lengths l + (lengths.take sym).count (l + 1) := by
  rw [canonicalCode, List.getD_eq_getElem?_getD, hsym, Option.getD_some, firstCode_succ]

/-- The symbols of a length before this one are not all. -/
theorem count_take_lt {n : Nat} (hsym : lengths[sym]? = some n) : (lengths.take sym).count n < lengths.count n := by
  obtain ⟨hlt, heq⟩ := List.getElem?_eq_some_iff.mp hsym
  have hsplit : lengths.take sym ++ lengths[sym] :: lengths.drop (sym + 1) = lengths := by simp
  calc (lengths.take sym).count n < (lengths.take sym ++ lengths[sym] :: lengths.drop (sym + 1)).count n := by
        rw [List.count_append, heq, List.count_cons_self]; omega
    _ = lengths.count n := by rw [hsplit]

/-- Each number below the count of a length is the place of one symbol among those of that length. -/
theorem exists_count_take_eq {n : Nat} : ∀ {lengths : List Nat} {k : Nat}, k < lengths.count n →
    ∃ sym, lengths[sym]? = some n ∧ (lengths.take sym).count n = k
  | [], k, hk => by simp at hk
  | x :: xs, k, hk => by
    by_cases hx : x = n
    · subst hx
      cases k with
      | zero => exact ⟨0, rfl, rfl⟩
      | succ k =>
        obtain ⟨sym, hsym, hcount⟩ := exists_count_take_eq (lengths := xs) (k := k) (by simpa using hk)
        exact ⟨sym + 1, hsym, by simpa using hcount⟩
    · obtain ⟨sym, hsym, hcount⟩ := exists_count_take_eq (lengths := xs) (k := k) (by simpa [hx] using hk)
      exact ⟨sym + 1, hsym, by simpa [hx] using hcount⟩

theorem canonicalCode_lt_codesUpTo (hsym : lengths[sym]? = some (l + 1)) :
    canonicalCode lengths sym < codesUpTo lengths (l + 1) := by
  have hlt := count_take_lt hsym
  rw [canonicalCode_eq hsym, codesUpTo_succ]
  omega

/-- No beginning of a code is a shorter code: no code continues another (R108). -/
theorem codesUpTo_le_shiftRight (hsym : lengths[sym]? = some (l + 1)) {d : Nat} (hd : d ≤ l) :
    codesUpTo lengths d ≤ canonicalCode lengths sym >>> (l + 1 - d) := by
  have hgrow := codesUpTo_mul_le lengths d (l - d)
  rw [Nat.add_sub_cancel' hd] at hgrow
  have hexp : l + 1 - d = l - d + 1 := by omega
  rw [Nat.shiftRight_eq_div_pow, Nat.le_div_iff_mul_le (Nat.two_pow_pos _), canonicalCode_eq hsym, hexp,
    pow_succ, ← Nat.mul_assoc]
  omega

/-- The table's entry for a symbol stands where its code leads (R107, R108). -/
theorem getElem?_symbols {t : HuffmanTable} (hle : ∀ l ∈ lengths, l ≤ 15) (h : buildTable lengths = some t)
    (hsym : lengths[sym]? = some (l + 1)) :
    t.symbols[symbolOffset lengths l + (lengths.take sym).count (l + 1)]? = some sym := by
  have hl : l < 15 := hle _ (List.mem_of_getElem? hsym)
  obtain ⟨hlt, heq⟩ := List.getElem?_eq_some_iff.mp hsym
  have hoffset : ((List.range l).flatMap fun j => symbolsOfLength lengths (j + 1)).length =
      symbolOffset lengths l := by
    simp [symbolOffset, List.length_flatMap, length_symbolsOfLength]
  have htaken : (lengths.take sym).length = sym := by simpa using hlt.le
  have hblock : symbolsOfLength (lengths.take sym) (l + 1) ++ [sym] <+: symbolsOfLength lengths (l + 1) := by
    have hnext := symbolsOfLength_snoc (lengths.take sym) (l + 1) (l + 1)
    have hmore := symbolsOfLength_prefix_append (lengths.take sym ++ [l + 1]) (lengths.drop (sym + 1)) (l + 1)
    rw [hnext, if_pos rfl, htaken] at hmore
    have hall : lengths.take sym ++ [l + 1] ++ lengths.drop (sym + 1) = lengths := by
      rw [← heq]; simp
    rwa [hall] at hmore
  have hin : (lengths.take sym).count (l + 1) < (symbolsOfLength lengths (l + 1)).length := by
    rw [length_symbolsOfLength]; exact count_take_lt hsym
  rw [symbols_of_buildTable hle h, ← hoffset,
    getElem?_flatMap_range (f := fun j => symbolsOfLength lengths (j + 1)) hl hin,
    ← length_symbolsOfLength (lengths.take sym)]
  exact (List.prefix_iff_getElem?.mp hblock _ (by simp)).trans (by simp)

end Symbol

/-! ## The stream's bits as a code -/

/-- The next `d` bits of the stream as a code, the first bit the most significant (R104). -/
def streamCode (S : List Byte) (p : Nat) : Nat → Nat
  | 0 => 0
  | d + 1 => streamCode S p d <<< 1 ||| (sbit S (p + d)).toNat

theorem streamCode_succ (S : List Byte) (p d : Nat) :
    streamCode S p (d + 1) = 2 * streamCode S p d + (sbit S (p + d)).toNat := by
  rw [streamCode, ← Nat.shiftLeft_add_eq_or_of_lt (by simpa using Bool.toNat_lt _), Nat.shiftLeft_eq, pow_one,
    Nat.mul_comm]

theorem testBit_streamCode (S : List Byte) (p d i : Nat) :
    (streamCode S p d).testBit i = (decide (i < d) && sbit S (p + (d - 1 - i))) := by
  induction d generalizing i with
  | zero => simp [streamCode]
  | succ d ih =>
    cases i with
    | zero => cases hb : sbit S (p + d) <;> simp [streamCode_succ, hb, Nat.testBit_zero]
    | succ i =>
      have hrest : streamCode S p (d + 1) / 2 = streamCode S p d := by
        have hb := Bool.toNat_lt (sbit S (p + d))
        rw [streamCode_succ]; omega
      have hat : d + 1 - 1 - (i + 1) = d - 1 - i := by omega
      rw [Nat.testBit_succ, hrest, ih, hat]
      simp

/-- Where the next bits are a code's, so are fewer of them the code's first bits. -/
theorem streamCode_eq_shiftRight {S : List Byte} {p len c : Nat} (hc : c < 2 ^ len)
    (hbits : ∀ j, j < len → sbit S (p + j) = c.testBit (len - 1 - j)) {d : Nat} (hd : d ≤ len) :
    streamCode S p d = c >>> (len - d) := by
  refine Nat.eq_of_testBit_eq fun i => ?_
  rw [testBit_streamCode, Nat.testBit_shiftRight]
  rcases Nat.lt_or_ge i d with hi | hi
  · have hat : len - 1 - (d - 1 - i) = len - d + i := by omega
    rw [hbits _ (by omega), hat, decide_eq_true hi, Bool.true_and]
  · have hhigh : c < 2 ^ (len - d + i) := hc.trans_le (Nat.pow_le_pow_right (by omega) (by omega))
    rw [Nat.testBit_lt_two_pow hhigh, decide_eq_false (Nat.not_lt.mpr hi), Bool.false_and]

/-! ## The walk -/

/-- `t` is the live reader `s` becomes by reading the next `k` stream bits. -/
structure State.ReadsBits (s t : State) (k : Nat) : Prop where
  moves : s.MovesOnBy t k
  discarded : t.discarded = s.discarded

theorem State.ReadsBits.trans {s t u : State} {a b : Nat} (h : s.ReadsBits t a) (h' : t.ReadsBits u b) :
    s.ReadsBits u (a + b) :=
  ⟨h.moves.trans h'.moves, h'.discarded.trans h.discarded⟩

theorem State.ReadsBits.consumed {s t : State} {k : Nat} (h : s.ReadsBits t k) :
    t.consumed = s.consumed + k := by
  have hpos : t.consumed + t.discarded = s.consumed + s.discarded + k := h.moves.streamPos
  have hdis := h.discarded
  omega

theorem State.Live.readBit {s : State} (h : s.Live) (hlen : s.streamPos + 1 ≤ 8 * s.src.length) :
    ∃ t, readField 1 s = .done (sbit s.src s.streamPos).toNat t ∧ s.ReadsBits t 1 := by
  obtain ⟨t, hdone, hmove⟩ := h.readField_eq_done (n := 1) (by decide) hlen
  have hskip := (h.readField_done (by decide) hdone).2.2
  refine ⟨t, by simpa [streamField] using hdone, hmove, by rw [hskip]; rfl⟩

/-- With no bit left a read fails the reader (R89). -/
theorem State.Live.readField_short_failed {s : State} (h : s.Live) {n : Nat} (hn : n ≤ 16)
    (hlen : 8 * s.src.length < s.streamPos + n) :
    ∃ t, readField n s = .fail .endOfInput t ∧ t.failed = true := by
  obtain ⟨t, hfail⟩ := h.readField_short hn hlen
  have hends := readField_endsWell hn h.healthy
  rw [hfail] at hends
  cases hends with
  | fail _ hend => exact ⟨t, hfail, hend.mpr rfl⟩

/-- The walk of the table for `lengths` once `d` bits are read, as the code `code`, and none matched. -/
def walkFrom (lengths symbols : List Nat) (d code : Nat) (s : State) : Reply Nat :=
  walkLengths symbols (((countLengths lengths).drop 1).drop d) code (2 * codesUpTo lengths d)
    (symbolOffset lengths d) s

theorem decodeSymbol_eq_walkFrom {lengths : List Nat} {t : HuffmanTable} (h : buildTable lengths = some t)
    (s : State) : decodeSymbol t s = walkFrom lengths t.symbols 0 0 s := by
  rw [decodeSymbol, (eq_of_buildTable h).1]
  rfl

section Round

variable {lengths symbols : List Nat} {d code bit : Nat} {s t : State}

/-- The counts still to come begin with that of the next length. -/
theorem countLengths_drop_eq_cons (hd : d < 15) : ((countLengths lengths).drop 1).drop d =
    lengths.count (d + 1) :: ((countLengths lengths).drop 1).drop (d + 1) := by
  rw [countLengths_drop_one, List.drop_eq_getElem_cons (by simpa using hd)]
  simp

/-- A round whose code is below `codesUpTo` ends the walk with the symbol that stands there (R109). -/
theorem walkFrom_match (hd : d < 15) (hbit : readField 1 s = .done bit t)
    (hlt : (code <<< 1 ||| bit) < codesUpTo lengths (d + 1)) {sym : Nat}
    (hsym : symbols[symbolOffset lengths d + ((code <<< 1 ||| bit) - 2 * codesUpTo lengths d)]? = some sym) :
    walkFrom lengths symbols d code s = .done sym t := by
  rw [walkFrom, countLengths_drop_eq_cons hd, walkLengths, hbit, Reply.andThen_done, ← codesUpTo_succ,
    if_pos hlt, hsym]

/-- Any other round goes on to the next length (R109). -/
theorem walkFrom_next (hd : d < 15) (hbit : readField 1 s = .done bit t)
    (hge : ¬ (code <<< 1 ||| bit) < codesUpTo lengths (d + 1)) :
    walkFrom lengths symbols d code s = walkFrom lengths symbols (d + 1) (code <<< 1 ||| bit) t := by
  have hfirst : codesUpTo lengths (d + 1) <<< 1 = 2 * codesUpTo lengths (d + 1) := by
    rw [Nat.shiftLeft_eq, pow_one, Nat.mul_comm]
  have hoffset : symbolOffset lengths d + lengths.count (d + 1) = symbolOffset lengths (d + 1) := by
    simp [symbolOffset, List.range_succ]
  rw [walkFrom, countLengths_drop_eq_cons hd, walkLengths, hbit, Reply.andThen_done, ← codesUpTo_succ,
    if_neg hge, hfirst, hoffset, walkFrom]

theorem walkFrom_fail (hd : d < 15) {e : ClientError} (hbit : readField 1 s = .fail e t) :
    walkFrom lengths symbols d code s = .fail e t := by
  rw [walkFrom, countLengths_drop_eq_cons hd, walkLengths, hbit, Reply.andThen_fail]

end Round

theorem walkFrom_all (lengths symbols : List Nat) (code : Nat) (s : State) :
    walkFrom lengths symbols 15 code s = .fail .invalidSymbol s := rfl

/-- None of the first `d` beginnings of the stream's next bits is a symbol's code. -/
def Unmatched (lengths : List Nat) (S : List Byte) (p d : Nat) : Prop :=
  ∀ k, k ≤ d → codesUpTo lengths k ≤ streamCode S p k

section Walk

variable {lengths : List Nat} {t : HuffmanTable} {s : State}

/-- While nothing matches the walk reads one bit a round (R109). -/
theorem decodeSymbol_unmatched (hbuild : buildTable lengths = some t) (h : s.Live) :
    ∀ {d : Nat}, d ≤ 15 → s.streamPos + d ≤ 8 * s.src.length → Unmatched lengths s.src s.streamPos d →
    ∃ u, s.ReadsBits u d ∧
      decodeSymbol t s = walkFrom lengths t.symbols d (streamCode s.src s.streamPos d) u
  | 0, _, _, _ => ⟨s, ⟨h.movesOnBy_zero, rfl⟩, decodeSymbol_eq_walkFrom hbuild s⟩
  | d + 1, hd, hlen, hun => by
    obtain ⟨u, hsu, hu⟩ := decodeSymbol_unmatched hbuild h (d := d) (by omega) (by omega)
      fun k hk => hun k (by omega)
    have hpos := hsu.moves.streamPos
    have hsrc := hsu.moves.src
    obtain ⟨v, hv, huv⟩ := hsu.moves.live.readBit (by rw [hpos, hsrc]; omega)
    refine ⟨v, hsu.trans huv, ?_⟩
    have hno : ¬ streamCode s.src s.streamPos (d + 1) < codesUpTo lengths (d + 1) :=
      Nat.not_lt.mpr (hun (d + 1) le_rfl)
    rw [hpos, hsrc] at hv
    rw [hu, walkFrom_next (by omega) hv hno, ← streamCode]

/-- The next bits of the stream are the canonical code of `sym` (R104, R108). -/
def CodeAt (lengths : List Nat) (sym len : Nat) (S : List Byte) (p : Nat) : Prop :=
  ∀ j, j < len → sbit S (p + j) = (canonicalCode lengths sym).testBit (len - 1 - j)

/-- A code in the stream is found, at its length (R108 to R110). -/
theorem decodeSymbol_of_codeAt (hle : ∀ l ∈ lengths, l ≤ 15) (hbuild : buildTable lengths = some t)
    {sym len : Nat} (hsym : lengths[sym]? = some len) (hpos : 1 ≤ len) (h : s.Live)
    (hlen : s.streamPos + len ≤ 8 * s.src.length) (hcode : CodeAt lengths sym len s.src s.streamPos) :
    ∃ u, decodeSymbol t s = .done sym u ∧ s.ReadsBits u len := by
  obtain ⟨l, rfl⟩ : ∃ l, len = l + 1 := ⟨len - 1, by omega⟩
  have hl : l < 15 := hle _ (List.mem_of_getElem? hsym)
  have hmatch := canonicalCode_lt_codesUpTo hsym
  have hfits : canonicalCode lengths sym < 2 ^ (l + 1) :=
    hmatch.trans_le (wordsTaken_le_of_buildTable hbuild (by omega))
  have hun : Unmatched lengths s.src s.streamPos l := fun k hk => by
    rw [streamCode_eq_shiftRight hfits hcode (by omega)]
    exact codesUpTo_le_shiftRight hsym hk
  obtain ⟨u, hsu, hu⟩ := decodeSymbol_unmatched hbuild h (by omega) (by omega) hun
  have hat := hsu.moves.streamPos
  have hsrc := hsu.moves.src
  obtain ⟨v, hv, huv⟩ := hsu.moves.live.readBit (by rw [hat, hsrc]; omega)
  have hfull : streamCode s.src s.streamPos (l + 1) = canonicalCode lengths sym := by
    simpa using streamCode_eq_shiftRight hfits hcode le_rfl
  have hplace : canonicalCode lengths sym - 2 * codesUpTo lengths l = (lengths.take sym).count (l + 1) := by
    rw [canonicalCode_eq hsym, Nat.add_sub_cancel_left]
  rw [hat, hsrc] at hv
  rw [streamCode] at hfull
  refine ⟨v, ?_, hsu.trans huv⟩
  rw [hu]
  exact walkFrom_match hl hv (by rw [hfull]; exact hmatch)
    (by rw [hfull, hplace]; exact getElem?_symbols hle hbuild hsym)

/-- A stream with no code at its next bits is not matched at any length (R110). -/
theorem unmatched_of_no_code {S : List Byte} {p : Nat}
    (hno : ∀ sym len, lengths[sym]? = some len → 1 ≤ len → p + len ≤ 8 * S.length →
      ¬ CodeAt lengths sym len S p) :
    ∀ {d : Nat}, p + d ≤ 8 * S.length → Unmatched lengths S p d
  | 0, _, k, hk => by
    obtain rfl : k = 0 := by omega
    exact Nat.le_refl 0
  | d + 1, hlen, k, hk => by
    have hun := unmatched_of_no_code hno (d := d) (by omega)
    rcases Nat.lt_or_ge d k with hlast | hbefore
    · obtain rfl : k = d + 1 := by omega
      by_contra hlt
      have hprev := hun d le_rfl
      have hsucc := streamCode_succ S p d
      have hcodes := codesUpTo_succ lengths d
      obtain ⟨sym, hsym, hcount⟩ := exists_count_take_eq (lengths := lengths) (n := d + 1)
        (k := streamCode S p (d + 1) - 2 * codesUpTo lengths d) (by omega)
      have hcode : canonicalCode lengths sym = streamCode S p (d + 1) := by
        rw [canonicalCode_eq hsym, hcount]; omega
      refine hno sym (d + 1) hsym (by omega) hlen fun j hj => ?_
      have hat : d + 1 - 1 - (d + 1 - 1 - j) = j := by omega
      rw [hcode, testBit_streamCode, hat, decide_eq_true (by omega), Bool.true_and]
    · exact hun k hbefore

theorem decodeSymbol_invalid (hbuild : buildTable lengths = some t) (h : s.Live)
    (hlen : s.streamPos + 15 ≤ 8 * s.src.length) (hun : Unmatched lengths s.src s.streamPos 15) :
    ∃ u, decodeSymbol t s = .fail .invalidSymbol u ∧ u.consumed = s.consumed + 15 ∧ u.failed = false := by
  obtain ⟨u, hsu, hu⟩ := decodeSymbol_unmatched hbuild h le_rfl hlen hun
  exact ⟨u, hu, hsu.consumed, hsu.moves.live.healthy⟩

/-- The input ends before 15 bits are read, and nothing has matched (R110). -/
theorem decodeSymbol_short (hbuild : buildTable lengths = some t) (h : s.Live)
    (hlen : 8 * s.src.length < s.streamPos + 15)
    (hun : Unmatched lengths s.src s.streamPos (8 * s.src.length - s.streamPos)) :
    ∃ u, decodeSymbol t s = .fail .endOfInput u ∧ u.failed = true := by
  have hwithin : s.streamPos ≤ 8 * s.src.length :=
    h.inv.delivered_le.trans (Nat.mul_le_mul_left 8 h.inv.srcPos_le)
  obtain ⟨u, hsu, hu⟩ := decodeSymbol_unmatched hbuild h (by omega) (by omega) hun
  have hend : 8 * u.src.length < u.streamPos + 1 := by
    rw [hsu.moves.streamPos, hsu.moves.src]; omega
  obtain ⟨v, hv, hfailed⟩ := hsu.moves.live.readField_short_failed (n := 1) (by decide) hend
  exact ⟨v, hu.trans (walkFrom_fail (by omega) hv), hfailed⟩

end Walk

/-- Settles O45: `decodeSymbol_of_codeAt`. -/
theorem walkDecodesEveryCanonicalCode : Obligations.WalkDecodesEveryCanonicalCode := by
  intro lengths t sym len s hle hbuild hsym hpos hinv hf hresp hlen hcode
  obtain ⟨u, hu, hsu⟩ := decodeSymbol_of_codeAt hle hbuild hsym hpos ⟨hinv, hf, hresp⟩ hlen hcode
  exact ⟨u, hu, hsu.moves.streamPos, hsu.moves.live.inv, hsu.moves.live.healthy⟩

end Sys2Proof.Machine
end

section
/-!
PROOF. The codes of the fixed tables (41_client_requests.md R111 to R113), walks that no code matches (R106,
R110, R112), and a whole session over a fixed block of literals (R101, R102, R114).
-/

namespace Sys2Proof.Machine

/-! ## The fixed codes -/

/-- The code length of each symbol (R111). -/
theorem getElem?_fixedLengths (sym : Nat) : fixedLengths[sym]? =
    if sym < 144 then some 8 else if sym < 256 then some 9 else if sym < 280 then some 7
    else if sym < 288 then some 8 else none := by
  simp only [fixedLengths, List.getElem?_append, List.getElem?_replicate, List.length_append,
    List.length_replicate]
  grind

/-- How many symbols of a length there are before `sym` (R111). -/
theorem count_take_fixedLengths (sym len : Nat) : (fixedLengths.take sym).count len =
    (if len = 8 then min sym 144 + min (sym - 280) 8 else 0) + (if len = 9 then min (sym - 144) 112 else 0) +
      (if len = 7 then min (sym - 256) 24 else 0) := by
  simp only [fixedLengths, List.take_append, List.take_replicate, List.count_append, List.count_replicate,
    List.length_append, List.length_replicate]
  grind

theorem length_fixedLengths : fixedLengths.length = 288 := by
  simp only [fixedLengths, List.length_append, List.length_replicate]

theorem fixedLengths_bounds {l : Nat} (hl : l ∈ fixedLengths) : 7 ≤ l ∧ l ≤ 9 := by
  simp only [fixedLengths, List.mem_append, List.mem_replicate] at hl
  omega

theorem exists_fixedTable : ∃ t, buildTable fixedLengths = some t :=
  Option.isSome_iff_exists.mp (by decide +kernel)

theorem exists_fixedDistanceTable : ∃ t, buildTable fixedDistanceLengths = some t :=
  Option.isSome_iff_exists.mp (by decide +kernel)

/-- Where the codes of 6, 7 and 8 bits end. -/
theorem codesUpTo_fixedLengths :
    codesUpTo fixedLengths 6 = 0 ∧ codesUpTo fixedLengths 7 = 24 ∧ codesUpTo fixedLengths 8 = 200 := by
  decide +kernel

/-- The canonical code of each symbol, by its length (R113). -/
theorem fixedCode_eq {sym len : Nat} (hsym : fixedLengths[sym]? = some len) :
    canonicalCode fixedLengths sym = if len = 7 then sym - 256
      else if len = 8 then 0x30 + (min sym 144 + (sym - 280)) else 0x190 + (sym - 144) := by
  obtain ⟨hsix, hseven, height⟩ := codesUpTo_fixedLengths
  obtain ⟨hge, hle⟩ := fixedLengths_bounds (List.mem_of_getElem? hsym)
  have hrange := getElem?_fixedLengths sym
  rw [hsym] at hrange
  obtain rfl | rfl | rfl : len = 7 ∨ len = 8 ∨ len = 9 := by omega
  · rw [canonicalCode_eq hsym, hsix, count_take_fixedLengths]; grind
  · rw [canonicalCode_eq hsym, hseven, count_take_fixedLengths]; grind
  · rw [canonicalCode_eq hsym, height, count_take_fixedLengths]; grind

/-- All 30 distance symbols have codes of 5 bits, so each is its own code (R112, R113). -/
theorem fixedDistanceCode {sym : Nat} (hle : sym ≤ 29) :
    fixedDistanceLengths[sym]? = some 5 ∧ canonicalCode fixedDistanceLengths sym = sym := by
  have hsym : fixedDistanceLengths[sym]? = some 5 := by
    rw [fixedDistanceLengths, List.getElem?_replicate, if_pos (Nat.lt_succ_of_le hle)]
  have hnone : codesUpTo fixedDistanceLengths 4 = 0 := by decide
  have hcount : (fixedDistanceLengths.take sym).count 5 = sym := by
    rw [fixedDistanceLengths, List.take_replicate, List.count_replicate_self]; omega
  refine ⟨hsym, ?_⟩
  rw [canonicalCode_eq hsym, hnone, hcount, Nat.mul_zero, Nat.zero_add]

/-- Settles O47: the codes of each length, which is known for every symbol. -/
theorem fixedCodesAreTheListed : Obligations.FixedCodesAreTheListed := by
  refine ⟨Option.isSome_iff_exists.mpr exists_fixedTable,
    Option.isSome_iff_exists.mpr exists_fixedDistanceTable, fun sym =>
    ⟨fun hge hle => ?_, fun hle => ?_, fun hge hle => ?_, fun hge hle => ?_, fixedDistanceCode⟩⟩
  · have hsym : fixedLengths[sym]? = some 7 := by rw [getElem?_fixedLengths]; grind
    exact ⟨hsym, (fixedCode_eq hsym).trans (by grind)⟩
  · have hsym : fixedLengths[sym]? = some 8 := by rw [getElem?_fixedLengths]; grind
    exact ⟨hsym, (fixedCode_eq hsym).trans (by grind)⟩
  · have hsym : fixedLengths[sym]? = some 8 := by rw [getElem?_fixedLengths]; grind
    exact ⟨hsym, (fixedCode_eq hsym).trans (by grind)⟩
  · have hsym : fixedLengths[sym]? = some 9 := by rw [getElem?_fixedLengths]; grind
    exact ⟨hsym, (fixedCode_eq hsym).trans (by grind)⟩

/-! ## Walks that nothing matches -/

/-- With all lengths zero there is no code, and so no over-subscription. -/
theorem exists_table_of_degenerate {lengths : List Nat} (hzero : ∀ l ∈ lengths, l = 0) :
    ∃ t, buildTable lengths = some t := by
  have hnone : ∀ j, lengths.count (j + 1) = 0 := fun j =>
    List.count_eq_zero_of_not_mem fun hmem => Nat.succ_ne_zero j (hzero _ hmem)
  refine Option.ne_none_iff_exists'.mp fun hfails => ?_
  obtain ⟨k, -, hlt⟩ := (tableFailsExactlyWhenOversubscribed lengths).mp hfails
  simp [hnone] at hlt

/-- No distance symbol's code begins with four bits of 1 (R112). -/
theorem no_fixedDistanceCode_of_ones {S : List Byte} {p : Nat} (hones : ∀ j, j < 4 → sbit S (p + j) = true)
    {sym len : Nat} (hsym : fixedDistanceLengths[sym]? = some len) :
    ¬ CodeAt fixedDistanceLengths sym len S p := by
  intro hcode
  obtain ⟨hlt, rfl⟩ : sym < 30 ∧ 5 = len := by
    rw [fixedDistanceLengths, List.getElem?_replicate] at hsym
    simpa using hsym
  rw [CodeAt, (fixedDistanceCode (Nat.le_of_lt_succ hlt)).2] at hcode
  have hbits : ∀ j < 4, sym.testBit (4 - j) = true := fun j hj => (hcode j (by omega)).symm.trans (hones j hj)
  have hzero : ∀ sym < 30, ∃ j < 4, sym.testBit (4 - j) = false := by decide
  obtain ⟨j, hj, hbit⟩ := hzero sym hlt
  rw [hbits j hj] at hbit
  cases hbit

/-- Settles O46: a walk goes on past every length at which no code stands in the stream. -/
theorem degenerateTableNeverMatches : Obligations.DegenerateTableNeverMatches := by
  refine ⟨fun lengths s hzero hinv hf hresp hlen => ?_, fun lengths t s _ hbuild hinv hf hresp hno => ?_,
    fun t s hbuild hinv hf hresp hlen hones => ?_⟩
  · obtain ⟨t, hbuild⟩ := exists_table_of_degenerate hzero
    have hun := unmatched_of_no_code (lengths := lengths) (S := s.src) (fun sym len hsym hpos _ _ => by
      have := hzero len (List.mem_of_getElem? hsym); omega) hlen
    obtain ⟨u, hu⟩ := decodeSymbol_invalid hbuild ⟨hinv, hf, hresp⟩ hlen hun
    exact ⟨t, u, hbuild, hu⟩
  · have hno' : ∀ sym len, lengths[sym]? = some len → 1 ≤ len → s.streamPos + len ≤ 8 * s.src.length →
        ¬ CodeAt lengths sym len s.src s.streamPos := fun sym len hsym hpos hin hcode => by
      obtain ⟨j, hj, hne⟩ := hno sym len hsym hpos hin
      exact hne (hcode j hj)
    have hwithin : s.streamPos ≤ 8 * s.src.length :=
      hinv.delivered_le.trans (Nat.mul_le_mul_left 8 hinv.srcPos_le)
    exact ⟨fun hlen => decodeSymbol_invalid hbuild ⟨hinv, hf, hresp⟩ hlen (unmatched_of_no_code hno' hlen),
      fun hlen => decodeSymbol_short hbuild ⟨hinv, hf, hresp⟩ hlen (unmatched_of_no_code hno' (by omega))⟩
  · exact decodeSymbol_invalid hbuild ⟨hinv, hf, hresp⟩ hlen
      (unmatched_of_no_code (fun _ _ hsym _ _ => no_fixedDistanceCode_of_ones hones hsym) hlen)

/-! ## A fixed block of literals -/

/-- The stream's bits from `p` on begin with `bits`. -/
def BitsAt (bits : List Bool) (S : List Byte) (p : Nat) : Prop :=
  ∀ j b, bits[j]? = some b → sbit S (p + j) = b

theorem bitsAt_append {a b : List Bool} {S : List Byte} {p : Nat} (h : BitsAt (a ++ b) S p) :
    BitsAt a S p ∧ BitsAt b S (p + a.length) := by
  constructor
  · intro j x hx
    obtain ⟨hlt, -⟩ := List.getElem?_eq_some_iff.mp hx
    exact h j x ((List.getElem?_append_left hlt).trans hx)
  · intro j x hx
    rw [Nat.add_assoc]
    refine h _ x ?_
    rw [List.getElem?_append_right (Nat.le_add_right _ _), Nat.add_sub_cancel_left, hx]

theorem length_codeBits (lengths : List Nat) (sym : Nat) :
    (codeBits lengths sym).length = lengths.getD sym 0 := by
  simp [codeBits]

/-- A symbol's code written bit by bit is its code in the stream (R104). -/
theorem codeAt_of_bitsAt {lengths : List Nat} {sym : Nat} {S : List Byte} {p : Nat}
    (h : BitsAt (codeBits lengths sym) S p) : CodeAt lengths sym (codeBits lengths sym).length S p :=
  fun j hj => h j _ (by
    rw [length_codeBits] at hj ⊢
    rw [codeBits, List.getElem?_map, List.getElem?_range hj, Option.map_some])

/-- The walk of the fixed table over a symbol's code bits. -/
theorem decodeSymbol_fixed {t : HuffmanTable} (hbuild : buildTable fixedLengths = some t) {sym : Nat}
    (hsym : sym < 288) {s : State} (h : s.Live)
    (hlen : s.streamPos + (codeBits fixedLengths sym).length ≤ 8 * s.src.length)
    (hbits : BitsAt (codeBits fixedLengths sym) s.src s.streamPos) :
    ∃ u, decodeSymbol t s = .done sym u ∧ s.MovesOnBy u (codeBits fixedLengths sym).length ∧
      1 ≤ (codeBits fixedLengths sym).length := by
  obtain ⟨len, hat⟩ : ∃ len, fixedLengths[sym]? = some len :=
    ⟨_, List.getElem?_eq_getElem (length_fixedLengths ▸ hsym)⟩
  have hpos : 1 ≤ len := by have := fixedLengths_bounds (List.mem_of_getElem? hat); omega
  have hcodeLen : (codeBits fixedLengths sym).length = len := by
    rw [length_codeBits, List.getD_eq_getElem?_getD, hat, Option.getD_some]
  have hcode := codeAt_of_bitsAt hbits
  rw [hcodeLen] at hcode hlen ⊢
  have hle : ∀ l ∈ fixedLengths, l ≤ 15 := fun l hl => (fixedLengths_bounds hl).2.trans (by decide)
  obtain ⟨u, hu, hsu⟩ := decodeSymbol_of_codeAt hle hbuild hat hpos h hlen hcode
  exact ⟨u, hu, hsu.moves, hpos⟩

/-- The bits of a block body of literals: their codes, and that of 256 (R114). -/
def literalBits (lits : List Byte) : List Bool :=
  (lits.flatMap fun b => codeBits fixedLengths b.toNat) ++ codeBits fixedLengths 256

/-- The block body over the codes of literals and of 256 appends the literals (R114). -/
theorem blockBody_literals {lenCode : HuffmanTable} (hbuild : buildTable fixedLengths = some lenCode)
    (distCode : HuffmanTable) : ∀ (lits : List Byte) {fuel : Nat} {out : List Byte} {s : State}, s.Live →
    (literalBits lits).length ≤ fuel → s.streamPos + (literalBits lits).length ≤ 8 * s.src.length →
    BitsAt (literalBits lits) s.src s.streamPos →
    ∃ u, blockBody lenCode distCode fuel out s = .done (out ++ lits) u ∧
      s.MovesOnBy u (literalBits lits).length
  | [], fuel, out, s, h, hfuel, hlen, hbits => by
    obtain ⟨u, hu, hsu, hpos⟩ := decodeSymbol_fixed hbuild (sym := 256) (by decide) h hlen hbits
    obtain ⟨fuel, rfl⟩ : ∃ f, fuel = f + 1 := ⟨fuel - 1, by
      have hsame : (literalBits []).length = (codeBits fixedLengths 256).length := rfl
      omega⟩
    exact ⟨u, by simp [blockBody, hu], hsu⟩
  | b :: lits, fuel, out, s, h, hfuel, hlen, hbits => by
    have hsplit : literalBits (b :: lits) = codeBits fixedLengths b.toNat ++ literalBits lits := by
      simp [literalBits]
    rw [hsplit, List.length_append] at hfuel hlen ⊢
    rw [hsplit] at hbits
    obtain ⟨hfirst, hrest⟩ := bitsAt_append hbits
    have hlit : b.toNat < 256 := b.isLt
    obtain ⟨u, hu, hsu, hpos⟩ := decodeSymbol_fixed hbuild (sym := b.toNat) (by omega) h (by omega) hfirst
    obtain ⟨fuel, rfl⟩ : ∃ f, fuel = f + 1 := ⟨fuel - 1, by omega⟩
    rw [← hsu.streamPos, ← hsu.src] at hrest
    obtain ⟨v, hv, huv⟩ := blockBody_literals hbuild distCode lits (fuel := fuel)
      (out := out ++ [BitVec.ofNat 8 b.toNat]) hsu.live (by omega)
      (by rw [hsu.streamPos, hsu.src]; omega) hrest
    refine ⟨v, ?_, hsu.trans huv⟩
    rw [blockBody, hu, Reply.andThen_done, if_pos hlit, hv, BitVec.ofNat_toNat, BitVec.setWidth_eq]
    simp

theorem State.Live.bitsLeft_add {s : State} (h : s.Live) : s.bitsLeft + s.streamPos = 8 * s.src.length := by
  have hpos : s.bitcnt.toNat + s.streamPos = 8 * s.srcPos := h.inv.position h.healthy
  have hsrc := h.inv.srcPos_le
  simp only [State.bitsLeft]
  omega

/-- No byte is pulled that lies wholly after the last bit delivered or discarded (R88). -/
theorem State.Live.srcPos_eq {s : State} (h : s.Live) : s.srcPos = (s.streamPos + 7) / 8 := by
  have hpos : s.bitcnt.toNat + s.streamPos = 8 * s.srcPos := h.inv.position h.healthy
  have hcnt := h.inv.bitcnt_le h.healthy
  omega

/-- The three bits 1, 1, 0 are the header of a final block of type 1 (R101). -/
theorem readHeader_of_bits {s : State} (h : s.Live) (hlen : s.streamPos + 3 ≤ 8 * s.src.length)
    (hbits : BitsAt [true, true, false] s.src s.streamPos) :
    ∃ u, readHeader s = .done ⟨1, 1⟩ u ∧ s.MovesOnBy u 3 := by
  have h0 : sbit s.src s.streamPos = true := hbits 0 _ rfl
  have h1 : sbit s.src (s.streamPos + 1) = true := hbits 1 _ rfl
  have h2 : sbit s.src (s.streamPos + 1 + 1) = false := hbits 2 _ rfl
  obtain ⟨t, ht, hst⟩ := h.readField_eq_done (n := 1) (by decide) (by omega)
  obtain ⟨u, hu, htu⟩ := hst.live.readField_eq_done (n := 2) (by decide) (by rw [hst.streamPos, hst.src]; omega)
  rw [hst.streamPos, hst.src] at hu
  exact ⟨u, by simp [readHeader, ht, hu, streamField, h0, h1, h2], hst.trans htu⟩

/-- Settles O48: the header, then the block body over the literals' codes. -/
theorem fixedBlockOfLiteralsInflates : Obligations.FixedBlockOfLiteralsInflates := by
  intro lits s hinv hf hresp bits hlen hbits
  obtain ⟨lenCode, hlenCode⟩ := exists_fixedTable
  obtain ⟨distCode, hdistCode⟩ := exists_fixedDistanceTable
  have h : s.Live := ⟨hinv, hf, hresp⟩
  have hsplit : bits = [true, true, false] ++ literalBits lits := List.append_assoc _ _ _
  have hcount : bits.length = 3 + (literalBits lits).length := by rw [hsplit, List.length_append]; rfl
  obtain ⟨hheader, hbody⟩ := bitsAt_append (hsplit ▸ hbits)
  obtain ⟨t, ht, hst⟩ := readHeader_of_bits h (by omega) hheader
  have hleft := hst.live.bitsLeft_add
  rw [hst.streamPos, hst.src] at hleft
  obtain ⟨u, hu, htu⟩ := blockBody_literals hlenCode distCode lits (fuel := t.bitsLeft + 1) (out := [])
    hst.live (by omega) (by rw [hst.streamPos, hst.src]; omega) (by rw [hst.streamPos, hst.src]; exact hbody)
  have hsu := hst.trans htu
  rw [← hcount] at hsu
  refine ⟨u, ?_, hsu.streamPos, hsu.live.healthy, by rw [hsu.live.srcPos_eq, hsu.streamPos]⟩
  have hblock : fixedBlock [] t = .done lits u := by
    simpa [fixedBlock, buildOrFail, hlenCode, hdistCode, decodeBody] using hu
  simp [inflate, driverLoop, ht, runBlock, hblock]

end Sys2Proof.Machine
end

section
/-!
PROOF. The block body (41_client_requests.md R114 to R121): its symbols, the two tables, the back-reference and
its copy.
-/

namespace Sys2Proof.Machine

/-! ## The two tables -/

/-- Settles O59: each entry of the two tables, compared with the law. -/
theorem tablesHoldTheListedEntries : Obligations.TablesHoldTheListedEntries := by
  have hlengths : ∀ idx ≤ 27, 8 ≤ idx → lengthTable[idx]? =
      some (3 + (4 + idx % 4) * 2 ^ (idx / 4 - 1), idx / 4 - 1) := by decide
  have hdistances : ∀ idx ≤ 29, 4 ≤ idx → distanceTable[idx]? =
      some (1 + (2 + idx % 2) * 2 ^ (idx / 2 - 1), idx / 2 - 1) := by decide
  exact ⟨rfl, rfl, by decide, fun idx hge hle => hlengths idx hle hge, rfl, by decide,
    fun idx hge hle => hdistances idx hle hge⟩

/-- What a length can be: its symbol's base and the largest value of its extra bits (R116). -/
theorem lengthTable_bounds : ∀ e ∈ lengthTable, e.2 ≤ 16 ∧ 3 ≤ e.1 ∧ e.1 + 2 ^ e.2 ≤ 259 := by decide

/-- What a distance can be (R117). -/
theorem distanceTable_bounds : ∀ e ∈ distanceTable, e.2 ≤ 16 ∧ 1 ≤ e.1 ∧ e.1 + 2 ^ e.2 ≤ 32769 := by decide

/-- What is read for a symbol of a table: its entry's base and the value of its extra bits. -/
theorem readExtended_done {table : List (Nat × Nat)} {idx x : Nat} {s t : State}
    (h : readExtended table idx s = .done x t) :
    ∃ base extra v, table[idx]? = some (base, extra) ∧ readField extra s = .done v t ∧ x = base + v := by
  rw [readExtended] at h
  cases he : table[idx]? with
  | none => simp [he] at h
  | some e =>
    simp only [he] at h
    obtain ⟨v, u, hv, hdone⟩ := Reply.andThen_eq_done h
    cases hdone
    exact ⟨e.1, e.2, v, rfl, hv, rfl⟩

/-! ## Back-references -/

/-- The copy of a back-reference whose three reads are done: R119's check decides it. -/
theorem backReference_of_reads {distCode : HuffmanTable} {idx len didx dist : Nat} (out : List Byte)
    {s t u v : State} (hlen : readExtended lengthTable idx s = .done len t)
    (hdidx : decodeSymbol distCode t = .done didx u) (hdist : readExtended distanceTable didx u = .done dist v) :
    backReference distCode idx out s =
      if out.length < dist then .fail .invalidDistance v else .done (copyBack dist len out) v := by
  rw [backReference, hlen, Reply.andThen_done, hdidx, Reply.andThen_done, hdist, Reply.andThen_done]

/-- Settles O50: the parts of a back-reference are its three reads, each a base and the extra bits' value. -/
theorem backReferenceStaysInTheOutput : Obligations.BackReferenceStaysInTheOutput := by
  refine ⟨fun distCode idx out out' s t h => ?_, fun distCode idx len didx dist out s t u v hl hd hx hin => ?_⟩
  · obtain ⟨len, s1, hlen, h1⟩ := Reply.andThen_eq_done h
    obtain ⟨didx, s2, hdidx, h2⟩ := Reply.andThen_eq_done h1
    obtain ⟨dist, s3, hdist, h3⟩ := Reply.andThen_eq_done h2
    by_cases hout : out.length < dist
    · simp [hout] at h3
    · rw [if_neg hout] at h3
      cases h3
      obtain ⟨base, extra, v, hentry, hv, rfl⟩ := readExtended_done hlen
      obtain ⟨dbase, dextra, w, hdentry, hw, rfl⟩ := readExtended_done hdist
      obtain ⟨hextra, hge, hle⟩ := lengthTable_bounds _ (List.mem_of_getElem? hentry)
      obtain ⟨hdextra, hdge, hdle⟩ := distanceTable_bounds _ (List.mem_of_getElem? hdentry)
      have hvlt := readField_lt hextra hv
      have hwlt := readField_lt hdextra hw
      simp only at hge hle hdge hdle hvlt hwlt
      exact ⟨base, extra, v, didx, dbase, dextra, w, s1, s2, hentry, hv, hdidx, hdentry, hw, by omega,
        by omega, by omega, by omega, by omega, rfl⟩
  · rw [backReference_of_reads out hl hd hx, if_neg (Nat.not_lt.mpr hin)]

/-- Settles O49: one round of the loop, by the ranges of the symbol; and R119's check after the reads. -/
theorem blockBodyFollowsItsSymbols : Obligations.BlockBodyFollowsItsSymbols := by
  refine ⟨fun lenCode distCode fuel sym out s t h => ?_,
    fun distCode idx len didx dist out s t u v hl hd hx hin => ?_⟩
  · rw [blockBody, h, Reply.andThen_done]
    refine ⟨fun hlit => if_pos hlit, fun hend => ?_, fun hge hle => ?_, fun hge => ?_⟩
    · rw [if_neg (by omega), if_pos hend]
    · rw [if_neg (by omega), if_neg (by omega), if_pos hle]
    · rw [if_neg (by omega), if_neg (by omega), if_neg (by omega)]
  · rw [backReference_of_reads out hl hd hx, if_pos hin]

/-! ## The copy -/

section Copy

variable {dist : Nat} (hdist : 1 ≤ dist)
include hdist

/-- The first byte copied is the one `dist` before the output's end, and the copy goes on after it (R121). -/
theorem copyBack_succ {out : List Byte} (hin : dist ≤ out.length) (len : Nat) :
    ∃ b, out[out.length - dist]? = some b ∧ copyBack dist (len + 1) out = copyBack dist len (out ++ [b]) := by
  have hsome := List.getElem?_eq_getElem (l := out) (i := out.length - dist) (by omega)
  exact ⟨_, hsome, by rw [copyBack, hsome]⟩

theorem copyBack_appends : ∀ (len : Nat) {out : List Byte}, dist ≤ out.length →
    (copyBack dist len out).length = out.length + len ∧ out <+: copyBack dist len out
  | 0, out, _ => ⟨rfl, List.prefix_rfl⟩
  | len + 1, out, hin => by
    obtain ⟨b, -, hcopy⟩ := copyBack_succ hdist hin len
    obtain ⟨hlength, hprefix⟩ := copyBack_appends len (out := out ++ [b]) (by simp; omega)
    rw [hcopy]
    exact ⟨by rw [hlength, List.length_append, List.length_singleton]; omega,
      (List.prefix_append _ _).trans hprefix⟩

theorem getElem?_copyBack : ∀ (len : Nat) {out : List Byte}, dist ≤ out.length → ∀ i, i < len →
    (copyBack dist len out)[out.length + i]? = (copyBack dist len out)[out.length + i - dist]?
  | len + 1, out, hin, i, hi => by
    obtain ⟨b, hb, hcopy⟩ := copyBack_succ hdist hin len
    have hin' : dist ≤ (out ++ [b]).length := by simp; omega
    rw [hcopy]
    cases i with
    | zero =>
      have hkept := List.prefix_iff_getElem?.mp (copyBack_appends hdist len hin').2
      have hlast := hkept out.length (by simp)
      have hsource := hkept (out.length - dist) (by simp)
      obtain ⟨hlt, heq⟩ := List.getElem?_eq_some_iff.mp hb
      rw [Nat.add_zero, hlast, hsource, List.getElem_append_left hlt, heq]
      simp
    | succ i =>
      have hlater := getElem?_copyBack len hin' i (by omega)
      rw [List.length_append, List.length_singleton] at hlater
      rwa [Nat.add_assoc, Nat.add_comm 1 i] at hlater

end Copy

/-- Settles O51: `copyBack_appends` and `getElem?_copyBack`, by induction on the bytes to copy. -/
theorem copyRepeatsAtItsDistance : Obligations.CopyRepeatsAtItsDistance := by
  intro dist len out hdist hin
  obtain ⟨hlength, hprefix⟩ := copyBack_appends hdist len hin
  exact ⟨hlength, (List.prefix_iff_eq_take.mp hprefix).symm, getElem?_copyBack hdist len hin⟩

end Sys2Proof.Machine
end

section
/-!
PROOF. The dynamic block's header (41_client_requests.md R122 to R124) and the stored block (R125).
-/

namespace Sys2Proof.Machine

/-! ## The counts and the code-length code -/

/-- Settles O52: three fields in a row, and then the two checks. -/
theorem dynamicCountsAreReadThenChecked : Obligations.DynamicCountsAreReadThenChecked := by
  intro s hinv hf hresp hlen
  have h : s.Live := ⟨hinv, hf, hresp⟩
  obtain ⟨t, ht, hst⟩ := h.readField_eq_done (n := 5) (by decide) (by omega)
  obtain ⟨u, hu, htu⟩ := hst.live.readField_eq_done (n := 5) (by decide)
    (by rw [hst.streamPos, hst.src]; omega)
  have hsu := hst.trans htu
  obtain ⟨v, hv, huv⟩ := hsu.live.readField_eq_done (n := 4) (by decide)
    (by rw [hsu.streamPos, hsu.src]; omega)
  rw [hst.streamPos, hst.src] at hu
  rw [hsu.streamPos, hsu.src] at hv
  refine ⟨v, (hsu.trans huv).streamPos, ?_⟩
  rw [readCounts, ht, Reply.andThen_done, hu, Reply.andThen_done, hv, Reply.andThen_done]

theorem length_foldl_set : ∀ (es : List (Nat × Nat)) (ls : List Nat),
    (es.foldl (fun ls e => ls.set e.1 e.2) ls).length = ls.length
  | [], _ => rfl
  | _ :: es, _ => (length_foldl_set es _).trans List.length_set

/-- Values written at distinct places: each place that gets one holds it, and every other is as it was. -/
theorem getElem?_foldl_set : ∀ {order vals ls : List Nat} (p : Nat), order.Nodup → p < ls.length →
    ((order.zip vals).foldl (fun ls e => ls.set e.1 e.2) ls)[p]? =
      some (if p ∈ order then vals.getD (order.idxOf p) (ls.getD p 0) else ls.getD p 0)
  | [], vals, ls, p, _, hp => by simp [hp]
  | o :: order, [], ls, p, _, hp => by simp [hp]
  | o :: order, v :: vals, ls, p, hnodup, hp => by
    obtain ⟨hnot, hrest⟩ := List.nodup_cons.mp hnodup
    have ih := getElem?_foldl_set (order := order) (vals := vals) (ls := ls.set o v) p hrest (by simpa using hp)
    rw [List.zip_cons_cons, List.foldl_cons, ih]
    by_cases hop : o = p
    · subst hop
      simp [hnot, hp]
    · have hpo : p ≠ o := Ne.symm hop
      simp [hop, hpo, List.idxOf_cons_ne]

theorem codeLengthOrder_nodup : codeLengthOrder.Nodup := by decide

/-- Settles O53: the values stand at distinct places of 19 zeros. -/
theorem codeLengthsStandInTheirOrder : Obligations.CodeLengthsStandInTheirOrder := by
  intro vals _
  refine ⟨(length_foldl_set _ _).trans List.length_replicate, fun i sym hsym => ?_⟩
  have hmem : sym ∈ codeLengthOrder := List.mem_of_getElem? hsym
  have hbound : ∀ sym ∈ codeLengthOrder, sym < 19 := by decide
  have hidx : codeLengthOrder.idxOf sym = i := by
    obtain ⟨hlt, rfl⟩ := List.getElem?_eq_some_iff.mp hsym
    exact codeLengthOrder_nodup.idxOf_getElem i hlt
  have hzero : (List.replicate 19 0).getD sym 0 = 0 := by
    rw [List.getD_replicate _ (hbound sym hmem)]
  rw [arrangeLengths, getElem?_foldl_set sym codeLengthOrder_nodup
    (List.length_replicate.symm ▸ hbound sym hmem), if_pos hmem, hidx, hzero]

/-! ## Sequences of code lengths -/

/-- What repeats an entry writes it up to the declared bound, or fails (R124). -/
theorem putCopies_done {count r x : Nat} {L L' : List Nat} {s t : State}
    (h : putCopies count r x L s = .done L' t) :
    L' = L ++ List.replicate r x ∧ L.length + r ≤ count ∧ t = s := by
  rw [putCopies] at h
  by_cases hover : count < L.length + r
  · rw [if_pos hover] at h; cases h
  · rw [if_neg hover] at h; cases h
    exact ⟨rfl, Nat.le_of_not_lt hover, rfl⟩

/-- A repeat symbol: the width of its extra bits, the bias of its count and the entry it repeats (R124). -/
def RepeatSymbol (L : List Nat) (sym width bias x : Nat) : Prop :=
  (sym = 16 ∧ width = 2 ∧ bias = 3 ∧ L.getLast? = some x) ∨
    (sym = 17 ∧ width = 3 ∧ bias = 3 ∧ x = 0) ∨ (sym = 18 ∧ width = 7 ∧ bias = 11 ∧ x = 0)

theorem applyLengthSymbol_literal (count : Nat) {sym : Nat} (hsym : sym ≤ 15) (L : List Nat) (s : State) :
    applyLengthSymbol count sym L s = .done (L ++ [sym]) s := if_pos hsym

theorem applyLengthSymbol_repeat (count : Nat) {sym width bias x : Nat} {L : List Nat}
    (h : RepeatSymbol L sym width bias x) (s : State) :
    applyLengthSymbol count sym L s =
      (readField width s).andThen fun v s => putCopies count (v + bias) x L s := by
  rcases h with ⟨rfl, rfl, rfl, hx⟩ | ⟨rfl, rfl, rfl, rfl⟩ | ⟨rfl, rfl, rfl, rfl⟩
  · simp [applyLengthSymbol, hx]
  · simp [applyLengthSymbol]
  · simp [applyLengthSymbol]

/-- Every symbol is an entry, a repeat, or no symbol of the code-length code (R124). -/
theorem applyLengthSymbol_cases (count sym : Nat) (L : List Nat) :
    sym ≤ 15 ∨ (∃ width bias x, RepeatSymbol L sym width bias x) ∨
    ∀ s, applyLengthSymbol count sym L s = .fail .malformedHeader s := by
  by_cases hlit : sym ≤ 15
  · exact .inl hlit
  by_cases h16 : sym = 16
  · cases hx : L.getLast? with
    | none => exact .inr (.inr fun s => by simp [applyLengthSymbol, h16, hx])
    | some x => exact .inr (.inl ⟨2, 3, x, .inl ⟨h16, rfl, rfl, hx⟩⟩)
  by_cases h17 : sym = 17
  · exact .inr (.inl ⟨3, 3, 0, .inr (.inl ⟨h17, rfl, rfl, rfl⟩)⟩)
  by_cases h18 : sym = 18
  · exact .inr (.inl ⟨7, 11, 0, .inr (.inr ⟨h18, rfl, rfl, rfl⟩)⟩)
  · exact .inr (.inr fun s => by simp [applyLengthSymbol, hlit, h16, h17, h18])

theorem RepeatSymbol.width_le {L : List Nat} {sym width bias x : Nat} (h : RepeatSymbol L sym width bias x) :
    width ≤ 16 ∧ 1 ≤ bias := by
  rcases h with ⟨-, rfl, rfl, -⟩ | ⟨-, rfl, rfl, -⟩ | ⟨-, rfl, rfl, -⟩ <;> decide

/-- What is repeated is an entry written before, or 0. -/
theorem RepeatSymbol.entry_le {L : List Nat} {sym width bias x : Nat} (h : RepeatSymbol L sym width bias x)
    (hL : ∀ l ∈ L, l ≤ 15) : x ≤ 15 := by
  rcases h with ⟨-, -, -, hx⟩ | ⟨-, -, -, rfl⟩ | ⟨-, -, -, rfl⟩
  · exact hL x (List.mem_of_getLast? hx)
  · decide
  · decide

/-- A sequence so far is within the declared number, and each entry is a code length (R124). -/
def LengthsSoFar (count : Nat) (L : List Nat) : Prop := L.length ≤ count ∧ ∀ l ∈ L, l ≤ 15

theorem applyLengthSymbol_keeps {count sym : Nat} {L L' : List Nat} {s t : State} (hL : LengthsSoFar count L)
    (hmissing : L.length < count) (h : applyLengthSymbol count sym L s = .done L' t) : LengthsSoFar count L' := by
  rcases applyLengthSymbol_cases count sym L with hlit | ⟨width, bias, x, hrepeat⟩ | hnone
  · rw [applyLengthSymbol_literal count hlit] at h
    cases h
    refine ⟨by simpa using hmissing, fun l hl => ?_⟩
    rcases List.mem_append.mp hl with hold | hnew
    · exact hL.2 l hold
    · exact (List.mem_singleton.mp hnew) ▸ hlit
  · rw [applyLengthSymbol_repeat count hrepeat] at h
    obtain ⟨v, u, -, hput⟩ := Reply.andThen_eq_done h
    obtain ⟨rfl, hbound, -⟩ := putCopies_done hput
    refine ⟨by simpa using hbound, fun l hl => ?_⟩
    rcases List.mem_append.mp hl with hold | hnew
    · exact hL.2 l hold
    · exact List.eq_of_mem_replicate hnew ▸ hrepeat.entry_le hL.2
  · rw [hnone] at h
    cases h

theorem lengthsLoop_of_missing (code : HuffmanTable) {count : Nat} (fuel : Nat) {L : List Nat} (s : State)
    (hmissing : L.length < count) : lengthsLoop code count (fuel + 1) L s =
      (decodeSymbol code s).andThen fun sym s =>
      (applyLengthSymbol count sym L s).andThen fun L s => lengthsLoop code count fuel L s := by
  rw [lengthsLoop, if_pos hmissing]

theorem lengthsLoop_of_full (code : HuffmanTable) {count : Nat} (fuel : Nat) {L : List Nat} (s : State)
    (hfull : ¬ L.length < count) : lengthsLoop code count fuel L s = .done L s := by
  cases fuel <;> rw [lengthsLoop, if_neg hfull]

theorem lengthsLoop_done {code : HuffmanTable} {count : Nat} {L' : List Nat} {t : State} :
    ∀ (fuel : Nat) {L : List Nat} {s : State}, LengthsSoFar count L →
    lengthsLoop code count fuel L s = .done L' t → L'.length = count ∧ ∀ l ∈ L', l ≤ 15
  | fuel, L, s, hL, h => by
    by_cases hmissing : L.length < count
    · cases fuel with
      | zero => rw [lengthsLoop, if_pos hmissing] at h; cases h
      | succ fuel =>
        rw [lengthsLoop_of_missing code fuel s hmissing] at h
        obtain ⟨sym, u, -, hrest⟩ := Reply.andThen_eq_done h
        obtain ⟨L1, v, happly, hloop⟩ := Reply.andThen_eq_done hrest
        exact lengthsLoop_done fuel (applyLengthSymbol_keeps hL hmissing happly) hloop
    · rw [lengthsLoop_of_full code fuel s hmissing] at h
      cases h
      exact ⟨Nat.le_antisymm hL.1 (Nat.le_of_not_lt hmissing), hL.2⟩

/-- Settles O54: what is kept in every round of the loop, and what each symbol does. -/
theorem lengthSequencesAreExact : Obligations.LengthSequencesAreExact := by
  refine ⟨fun code count L s t h => lengthsLoop_done count ⟨Nat.zero_le _, by simp⟩ h,
    fun code count fuel sym L s t hmissing h => ?_, fun count sym L s hlit => applyLengthSymbol_literal count hlit L s,
    fun count s => rfl, fun count sym width bias x L s hsym hinv hf hresp hlen => ?_,
    fun count r x L s hover => if_pos hover⟩
  · rw [lengthsLoop_of_missing code fuel s hmissing, h, Reply.andThen_done]
  · have h : s.Live := ⟨hinv, hf, hresp⟩
    obtain ⟨t, ht, hst⟩ := h.readField_eq_done (RepeatSymbol.width_le hsym).1 hlen
    refine ⟨t, hst.streamPos, hst.live.inv, hst.live.healthy, ?_⟩
    rw [applyLengthSymbol_repeat count hsym, ht, Reply.andThen_done, putCopies]

/-! ## Stored blocks -/

section RawBytes

variable {s : State} {p : Nat} (h : s.Live) (hpos : s.streamPos = 8 * p)
include h hpos

/-- A byte read on a byte boundary is the source's byte there (00_scope.md R9). -/
theorem State.Live.readField_byte (hp : p < s.src.length) :
    ∃ t, readField 8 s = .done s.src[p].toNat t ∧ s.MovesOnBy t 8 := by
  obtain ⟨t, ht, hst⟩ := h.readField_eq_done (n := 8) (by decide) (by omega)
  rw [hpos, streamField_byte (List.getElem?_eq_getElem hp)] at ht
  exact ⟨t, ht, hst⟩

theorem State.Live.lt_of_readField_byte {v : Nat} {t : State} (ht : readField 8 s = .done v t) :
    p < s.src.length := by
  have hlen := (h.readField_done_iff (n := 8) (by decide)).mp ⟨v, t, ht⟩
  omega

end RawBytes

/-- Raw bytes that are there are copied, the source's next ones (R125). -/
theorem copyRaw_of_le : ∀ {count p : Nat} {s : State} (out : List Byte), s.Live → s.streamPos = 8 * p →
    p + count ≤ s.src.length → ∃ t, copyRaw count out s = .done (out ++ (s.src.drop p).take count) t ∧
      s.MovesOnBy t (8 * count)
  | 0, p, s, out, h, _, _ => ⟨s, by simp [copyRaw], h.movesOnBy_zero⟩
  | count + 1, p, s, out, h, hpos, hp => by
    obtain ⟨t, ht, hst⟩ := h.readField_byte hpos (by omega)
    obtain ⟨u, hu, htu⟩ := copyRaw_of_le (count := count) (p := p + 1)
      (out ++ [BitVec.ofNat 8 s.src[p].toNat]) hst.live (by rw [hst.streamPos, hpos]; rfl)
      (by rw [hst.src]; omega)
    refine ⟨u, ?_, by rw [Nat.mul_succ, Nat.add_comm]; exact hst.trans htu⟩
    rw [copyRaw, ht, Reply.andThen_done, hu, hst.src, BitVec.ofNat_toNat, BitVec.setWidth_eq,
      List.drop_eq_getElem_cons (show p < s.src.length by omega), List.take_succ_cons]
    simp

/-- Raw bytes that are copied are there. -/
theorem le_of_copyRaw : ∀ {count p : Nat} {s t : State} {out out' : List Byte}, s.Live → s.streamPos = 8 * p →
    p ≤ s.src.length → copyRaw count out s = .done out' t → p + count ≤ s.src.length
  | 0, _, _, _, _, _, _, _, hp, _ => hp
  | count + 1, p, s, t, out, out', h, hpos, hp, hdone => by
    obtain ⟨v, u, hv, hrest⟩ := Reply.andThen_eq_done hdone
    have hlt := h.lt_of_readField_byte hpos hv
    have hsu := (h.readField_done (by decide) hv).2.1
    have hmore := le_of_copyRaw (p := p + 1) hsu.live (by rw [hsu.streamPos, hpos]; rfl)
      (by rw [hsu.src]; omega) hrest
    rw [hsu.src] at hmore
    omega

/-- `ALIGN` brings a live reader to the next whole byte of the source (R84). -/
theorem State.Live.align {s : State} (h : s.Live) (ha : s.alignPresent = true) :
    ∃ t, ((issue .align s).andThen valueOrFail) = .done 0 t ∧ t.Live ∧ t.src = s.src ∧
      t.streamPos = 8 * s.srcPos := by
  have hmove := (h.discardBits_movesOn ha).takeResponse (.ok 0)
  have hpos : s.bitcnt.toNat + s.streamPos = 8 * s.srcPos := h.inv.position h.healthy
  exact ⟨_, by rw [issue_align ha h.healthy]; rfl, hmove.live, hmove.src, by rw [hmove.streamPos]; omega⟩

/-- A stored block whose four bytes of lengths are there: the check, and then the copy (R125). -/
theorem storedBlock_of_le {s : State} (h : s.Live) (ha : s.alignPresent = true)
    (hlen : s.srcPos + 4 ≤ s.src.length) (out : List Byte) :
    ∃ t, t.Live ∧ t.src = s.src ∧ t.streamPos = 8 * (s.srcPos + 4) ∧ storedBlock out s =
      if streamField s.src (8 * s.srcPos + 16) 16 = (streamField s.src (8 * s.srcPos) 16 ^^^ 0xFFFF) then
        copyRaw (streamField s.src (8 * s.srcPos) 16) out t
      else .fail .malformedHeader t := by
  obtain ⟨t, ht, hlive, hsrc, hpos⟩ := h.align ha
  obtain ⟨u, hu, htu⟩ := hlive.readField_eq_done (n := 16) (by decide) (by rw [hpos, hsrc]; omega)
  obtain ⟨v, hv, huv⟩ := htu.live.readField_eq_done (n := 16) (by decide)
    (by rw [htu.streamPos, htu.src, hpos, hsrc]; omega)
  rw [htu.streamPos, htu.src, hpos, hsrc] at hv
  rw [hpos, hsrc] at hu
  have htv := htu.trans huv
  refine ⟨v, htv.live, htv.src.trans hsrc, by rw [htv.streamPos, hpos]; rfl, ?_⟩
  rw [storedBlock, ht, Reply.andThen_done, hu, Reply.andThen_done, hv, Reply.andThen_done]

/-- A stored block that is read has its four bytes of lengths. -/
theorem le_of_storedBlock {s t : State} (h : s.Live) (ha : s.alignPresent = true) {out out' : List Byte}
    (hdone : storedBlock out s = .done out' t) : s.srcPos + 4 ≤ s.src.length := by
  obtain ⟨u, hu, hlive, hsrc, hpos⟩ := h.align ha
  rw [storedBlock, hu, Reply.andThen_done] at hdone
  obtain ⟨len, v, hv, hrest⟩ := Reply.andThen_eq_done hdone
  obtain ⟨nlen, w, hw, -⟩ := Reply.andThen_eq_done hrest
  have huv := (hlive.readField_done (by decide) hv).2.1
  have hin := (huv.live.readField_done_iff (n := 16) (by decide)).mp ⟨nlen, w, hw⟩
  rw [huv.streamPos, huv.src, hpos, hsrc] at hin
  omega

/-- Settles O55: the lengths and their check, and then the raw bytes. -/
theorem storedBlockCopiesRawBytes : Obligations.StoredBlockCopiesRawBytes := by
  refine ⟨fun out out' s t hinv hf ha hresp hdone => ?_, fun out s hinv hf ha hresp hlen => ?_⟩
  · have h : s.Live := ⟨hinv, hf, hresp⟩
    have hlen := le_of_storedBlock h ha hdone
    obtain ⟨u, hlive, hsrc, hpos, hblock⟩ := storedBlock_of_le h ha hlen out
    rw [hblock] at hdone
    split_ifs at hdone with hcheck
    have hraw := le_of_copyRaw hlive hpos (by rw [hsrc]; exact hlen) hdone
    obtain ⟨v, hcopy, huv⟩ := copyRaw_of_le out hlive hpos hraw
    cases hcopy.symm.trans hdone
    refine ⟨hcheck, by rw [hsrc], ?_, huv.live.healthy⟩
    rw [huv.live.srcPos_eq, huv.streamPos, hpos]
    omega
  · obtain ⟨u, hlive, hsrc, hpos, hblock⟩ := storedBlock_of_le ⟨hinv, hf, hresp⟩ ha hlen out
    refine ⟨fun hbad => ⟨u, by rw [hblock, if_neg hbad], ?_, hlive.healthy⟩, fun hcheck hraw => ?_⟩
    · rw [hlive.srcPos_eq, hpos]
      omega
    · obtain ⟨v, hcopy, -⟩ := copyRaw_of_le out hlive hpos (by rw [hsrc]; exact hraw)
      exact ⟨_, v, by rw [hblock, if_pos hcheck, hcopy]⟩

end Sys2Proof.Machine
end

section
/-!
PROOF. The driver, the dispatch and whole sessions (41_client_requests.md R101 to R103, R120, R128): what each
handler is made of, and that every one of them ends well.
-/

namespace Sys2Proof.Machine

/-! ## The header and the dispatch -/

/-- Settles O41: the two reads are the one read's bits (R87), split again. -/
theorem headerMayBeReadWhole : Obligations.HeaderMayBeReadWhole := by
  intro s hinv hf hresp hlen
  have h : s.Live := ⟨hinv, hf, hresp⟩
  obtain ⟨t, ht, hst⟩ := h.readField_eq_done (n := 1) (by decide) (by omega)
  obtain ⟨u, hu, -⟩ := hst.live.readField_eq_done (n := 2) (by decide) (by rw [hst.streamPos, hst.src]; omega)
  obtain ⟨w, hw, hwu⟩ := h.two_reads_done (a := 1) (b := 2) (by decide) ht hu
  have hx : streamField s.src s.streamPos 1 < 2 := streamField_lt _ _ _
  have hy : streamField t.src t.streamPos 2 < 4 := streamField_lt _ _ _
  have hparts : ∀ x < 2, ∀ y < 4, (x ||| y <<< 1) &&& 1 = x ∧ (x ||| y <<< 1) >>> 1 = y := by decide
  obtain ⟨hfinal, htype⟩ := hparts _ hx _ hy
  refine ⟨_, u, w, by rw [readHeader, ht, Reply.andThen_done, hu, Reply.andThen_done], ?_, hwu,
    Nat.le_of_lt_succ hx, Nat.le_of_lt_succ hy⟩
  rw [readHeaderWhole, hw, Reply.andThen_done, hfinal, htype]

theorem runBlock_stored {s : State} (ha : s.alignPresent = true) (out : List Byte) :
    runBlock 0 out s = storedBlock out s := by
  rw [runBlock, if_pos rfl, if_pos ha]

theorem runBlock_stored_absent {s : State} (ha : s.alignPresent = false) (out : List Byte) :
    runBlock 0 out s = .fail .unsupportedBlockType s := by
  rw [runBlock, if_pos rfl, if_neg (by simp [ha])]

theorem runBlock_fixed (out : List Byte) (s : State) : runBlock 1 out s = fixedBlock out s := rfl

theorem runBlock_dynamic (out : List Byte) (s : State) : runBlock 2 out s = dynamicBlock out s := rfl

theorem runBlock_invalid {blockType : Nat} (h : 3 ≤ blockType) (out : List Byte) (s : State) :
    runBlock blockType out s = .fail .malformedHeader s := by
  rw [runBlock, if_neg (by omega), if_neg (by omega), if_neg (by omega)]

/-- Settles O42: both answers of the dispatch hand back the state they were given. -/
theorem invalidBlockTypesFailAtOnce : Obligations.InvalidBlockTypesFailAtOnce :=
  fun out s => ⟨runBlock_invalid le_rfl out s, fun ha => runBlock_stored_absent ha out⟩

theorem buildOrFail_of_some {lengths : List Nat} {t : HuffmanTable} (h : buildTable lengths = some t) (s : State) :
    buildOrFail lengths s = .done t s := by
  rw [buildOrFail, h]

theorem buildOrFail_of_none {lengths : List Nat} (h : buildTable lengths = none) (s : State) :
    buildOrFail lengths s = .fail .invalidHuffmanLengths s := by
  rw [buildOrFail, h]

/-! ## The handlers' parts -/

theorem fixedBlock_eq {lenCode distCode : HuffmanTable} (hlen : buildTable fixedLengths = some lenCode)
    (hdist : buildTable fixedDistanceLengths = some distCode) (out : List Byte) (s : State) :
    fixedBlock out s = decodeBody lenCode distCode out s := by
  rw [fixedBlock, buildOrFail_of_some hlen, Reply.andThen_done, buildOrFail_of_some hdist, Reply.andThen_done]

/-- A dynamic block past its two sequences of lengths: both tables, and the body over them (R126). -/
def dynamicBody (lens dists : List Nat) (out : List Byte) (s : State) : Reply (List Byte) :=
  (buildOrFail lens s).andThen fun lenCode s =>
  (buildOrFail dists s).andThen fun distCode s => decodeBody lenCode distCode out s

/-- A dynamic block past its header: both sequences of lengths, with the code-length table (R124). -/
def dynamicSequences (c : DynamicCounts) (code : HuffmanTable) (out : List Byte) (s : State) :
    Reply (List Byte) :=
  (decodeLengths code c.nlen s).andThen fun lens s =>
  (decodeLengths code c.ndist s).andThen fun dists s => dynamicBody lens dists out s

theorem dynamicBlock_eq (out : List Byte) (s : State) : dynamicBlock out s =
    (readCounts s).andThen fun c s =>
    (readFields 3 c.ncode s).andThen fun vals s =>
    (buildOrFail (arrangeLengths vals) s).andThen fun code s => dynamicSequences c code out s := rfl

theorem dynamicBody_of_none {lens dists : List Nat} (h : buildTable lens = none ∨ buildTable dists = none)
    (out : List Byte) (s : State) : dynamicBody lens dists out s = .fail .invalidHuffmanLengths s := by
  cases hlens : buildTable lens with
  | none => rw [dynamicBody, buildOrFail_of_none hlens, Reply.andThen_fail]
  | some lenCode =>
    have hdists : buildTable dists = none := h.resolve_left (by simp [hlens])
    rw [dynamicBody, buildOrFail_of_some hlens, Reply.andThen_done, buildOrFail_of_none hdists, Reply.andThen_fail]

theorem dynamicBody_of_some {lens dists : List Nat} {lenCode distCode : HuffmanTable}
    (hlens : buildTable lens = some lenCode) (hdists : buildTable dists = some distCode) (out : List Byte)
    (s : State) : dynamicBody lens dists out s = decodeBody lenCode distCode out s := by
  rw [dynamicBody, buildOrFail_of_some hlens, Reply.andThen_done, buildOrFail_of_some hdists, Reply.andThen_done]

/-- One round of the driver: the header, the block, and on with its output unless `final` was set (R102). -/
theorem driverLoop_of_header {fuel : Nat} {hd : BlockHeader} {out : List Byte} {s t : State}
    (h : readHeader s = .done hd t) : driverLoop (fuel + 1) out s =
      (runBlock hd.blockType out t).andThen fun out s =>
        if hd.final = 1 then .done out s else driverLoop fuel out s := by
  rw [driverLoop, h, Reply.andThen_done]

/-- Settles O60: each handler opened at its parts, as far as they have succeeded. -/
theorem driverRunsBlockAfterBlock : Obligations.DriverRunsBlockAfterBlock := by
  refine ⟨fun out s => ⟨fun ha => runBlock_stored ha out, fun ha => runBlock_stored_absent ha out,
      runBlock_fixed out s, runBlock_dynamic out s, runBlock_invalid le_rfl out s⟩,
    fun lenCode distCode out s hlen hdist => fixedBlock_eq hlen hdist out s,
    fun c vals out s s1 s2 hcounts hvals => ?_, fun _ => rfl, fun fuel hd out s s1 h => ?_⟩
  · have hblock : dynamicBlock out s = (buildOrFail (arrangeLengths vals) s2).andThen fun code s =>
        dynamicSequences c code out s := by
      rw [dynamicBlock_eq, hcounts, Reply.andThen_done, hvals, Reply.andThen_done]
    refine ⟨fun hnone => by rw [hblock, buildOrFail_of_none hnone, Reply.andThen_fail],
      fun code lens dists s3 s4 hcode hlens hdists => ?_⟩
    have hbody : dynamicBlock out s = dynamicBody lens dists out s4 := by
      rw [hblock, buildOrFail_of_some hcode, Reply.andThen_done, dynamicSequences, hlens, Reply.andThen_done,
        hdists, Reply.andThen_done]
    exact ⟨fun hnone => hbody.trans (dynamicBody_of_none hnone out s4),
      fun lenCode distCode hl hd => hbody.trans (dynamicBody_of_some hl hd out s4)⟩
  · refine ⟨fun out' s2 hrun => ⟨fun hfinal => ?_, fun hfinal => ?_⟩, fun e s2 hrun => ?_⟩
    · rw [driverLoop_of_header h, hrun, Reply.andThen_done, if_pos hfinal]
    · rw [driverLoop_of_header h, hrun, Reply.andThen_done, if_neg (by omega)]
    · rw [driverLoop_of_header h, hrun, Reply.andThen_fail]

/-! ## Every handler ends well -/

section EndsWell

variable {s : State}

theorem buildOrFail_endsWell (lengths : List Nat) (hf : s.failed = false) :
    (buildOrFail lengths s).EndsWell s 0 fun _ => True := by
  cases h : buildTable lengths with
  | none => rw [buildOrFail_of_none h]; exact Reply.endsWell_fail hf (by decide) (by decide)
  | some t => rw [buildOrFail_of_some h]; exact Reply.endsWell_done hf trivial

/-- A symbol that is decoded has cost a bit (R109). -/
theorem walkLengths_endsWell (symbols : List Nat) : ∀ (counts : List Nat) (code first index : Nat) {s : State},
    s.failed = false → (walkLengths symbols counts code first index s).EndsWell s 1 fun _ => True
  | [], _, _, _, _, hf => Reply.endsWell_fail hf (by decide) (by decide)
  | c :: cs, code, first, index, s, hf =>
    (readField_endsWell (n := 1) (by decide) hf).andThen (k := 0) fun bit t ht _ =>
      Reply.endsWell_ite
        (fun _ => by
          cases symbols[index + ((code <<< 1 ||| bit) - first)]? with
          | none => exact Reply.endsWell_fail ht.healthy (by decide) (by decide)
          | some sym => exact Reply.endsWell_done ht.healthy trivial)
        fun _ => (walkLengths_endsWell symbols cs _ _ _ ht.healthy).mono (Nat.zero_le _) fun _ => id

theorem decodeSymbol_endsWell (t : HuffmanTable) (hf : s.failed = false) :
    (decodeSymbol t s).EndsWell s 1 fun _ => True :=
  walkLengths_endsWell _ _ _ _ _ hf

theorem readExtended_endsWell {table : List (Nat × Nat)} (hwidth : ∀ e ∈ table, e.2 ≤ 16) (idx : Nat)
    (hf : s.failed = false) : (readExtended table idx s).EndsWell s 0 fun _ => True := by
  rw [readExtended]
  cases h : table[idx]? with
  | none => exact Reply.endsWell_fail hf (by decide) (by decide)
  | some e =>
    exact (readField_endsWell (hwidth e (List.mem_of_getElem? h)) hf).seq fun _ _ ht _ =>
      Reply.endsWell_done ht.healthy trivial

theorem backReference_endsWell (distCode : HuffmanTable) (idx : Nat) (out : List Byte) (hf : s.failed = false) :
    (backReference distCode idx out s).EndsWell s 0 fun _ => True :=
  (readExtended_endsWell (fun e he => (lengthTable_bounds e he).1) idx hf).seq fun _ _ ht _ =>
  (decodeSymbol_endsWell distCode ht.healthy).seq fun didx _ hu _ =>
  (readExtended_endsWell (fun e he => (distanceTable_bounds e he).1) didx hu.healthy).seq fun _ _ hv _ =>
    Reply.endsWell_ite (fun _ => Reply.endsWell_fail hv.healthy (by decide) (by decide))
      fun _ => Reply.endsWell_done hv.healthy trivial

/-- Each round of the block body decodes a symbol, so there are no more rounds than bits left (log 18). -/
theorem blockBody_endsWell (lenCode distCode : HuffmanTable) : ∀ (fuel : Nat) (out : List Byte) {s : State},
    s.failed = false → s.bitsLeft < fuel →
    (blockBody lenCode distCode fuel out s).EndsWell s 0 fun _ => True
  | fuel + 1, out, s, hf, hfuel =>
    (decodeSymbol_endsWell lenCode hf).seq fun sym t ht _ => by
      have hleft : t.bitsLeft < fuel := by have := ht.bitsLeft; omega
      split_ifs
      · exact blockBody_endsWell lenCode distCode fuel _ ht.healthy hleft
      · exact Reply.endsWell_done ht.healthy trivial
      · exact (backReference_endsWell distCode _ out ht.healthy).seq fun out' u hu _ =>
          blockBody_endsWell lenCode distCode fuel out' hu.healthy (hu.bitsLeft.trans_lt hleft)
      · exact Reply.endsWell_fail ht.healthy (by decide) (by decide)

theorem decodeBody_endsWell (lenCode distCode : HuffmanTable) (out : List Byte) (hf : s.failed = false) :
    (decodeBody lenCode distCode out s).EndsWell s 0 fun _ => True :=
  blockBody_endsWell lenCode distCode _ out hf (Nat.lt_succ_self _)

theorem fixedBlock_endsWell (out : List Byte) (hf : s.failed = false) :
    (fixedBlock out s).EndsWell s 0 fun _ => True := by
  obtain ⟨lenCode, hlen⟩ := exists_fixedTable
  obtain ⟨distCode, hdist⟩ := exists_fixedDistanceTable
  rw [fixedBlock_eq hlen hdist]
  exact decodeBody_endsWell lenCode distCode out hf

theorem readFields_endsWell {n : Nat} (hn : n ≤ 16) : ∀ (count : Nat) {s : State}, s.failed = false →
    (readFields n count s).EndsWell s 0 fun _ => True
  | 0, _, hf => Reply.endsWell_done hf trivial
  | count + 1, _, hf =>
    (readField_endsWell hn hf).seq fun _ _ ht _ =>
    (readFields_endsWell hn count ht.healthy).seq fun _ _ hu _ => Reply.endsWell_done hu.healthy trivial

theorem readCounts_endsWell (hf : s.failed = false) : (readCounts s).EndsWell s 0 fun _ => True :=
  (readField_endsWell (n := 5) (by decide) hf).seq fun _ _ ht _ =>
  (readField_endsWell (n := 5) (by decide) ht.healthy).seq fun _ _ hu _ =>
  (readField_endsWell (n := 4) (by decide) hu.healthy).seq fun _ _ hv _ =>
    Reply.endsWell_ite (fun _ => Reply.endsWell_fail hv.healthy (by decide) (by decide))
      fun _ => Reply.endsWell_done hv.healthy trivial

/-- A symbol that is applied adds an entry (R124). -/
theorem applyLengthSymbol_endsWell (count sym : Nat) (L : List Nat) (hf : s.failed = false) :
    (applyLengthSymbol count sym L s).EndsWell s 0 (L.length < ·.length) := by
  rcases applyLengthSymbol_cases count sym L with hlit | ⟨width, bias, x, hrepeat⟩ | hnone
  · rw [applyLengthSymbol_literal count hlit]
    exact Reply.endsWell_done hf (by simp)
  · obtain ⟨hwidth, hbias⟩ := hrepeat.width_le
    rw [applyLengthSymbol_repeat count hrepeat]
    exact (readField_endsWell hwidth hf).seq fun v _ ht _ =>
      Reply.endsWell_ite (fun _ => Reply.endsWell_fail ht.healthy (by decide) (by decide))
        fun _ => Reply.endsWell_done ht.healthy (by simp; omega)
  · rw [hnone]
    exact Reply.endsWell_fail hf (by decide) (by decide)

theorem lengthsLoop_endsWell (code : HuffmanTable) (count : Nat) : ∀ (fuel : Nat) (L : List Nat) {s : State},
    s.failed = false → count ≤ L.length + fuel → (lengthsLoop code count fuel L s).EndsWell s 0 fun _ => True
  | fuel, L, s, hf, hfuel => by
    by_cases hmissing : L.length < count
    · obtain ⟨fuel, rfl⟩ : ∃ f, fuel = f + 1 := ⟨fuel - 1, by omega⟩
      rw [lengthsLoop_of_missing code fuel s hmissing]
      exact (decodeSymbol_endsWell code hf).seq fun sym _ ht _ =>
        (applyLengthSymbol_endsWell count sym L ht.healthy).seq fun L' _ hu hadds =>
          lengthsLoop_endsWell code count fuel L' hu.healthy (by omega)
    · rw [lengthsLoop_of_full code fuel s hmissing]
      exact Reply.endsWell_done hf trivial

theorem decodeLengths_endsWell (code : HuffmanTable) (count : Nat) (hf : s.failed = false) :
    (decodeLengths code count s).EndsWell s 0 fun _ => True :=
  lengthsLoop_endsWell code count count [] hf (Nat.le_add_left _ _)

theorem dynamicBlock_endsWell (out : List Byte) (hf : s.failed = false) :
    (dynamicBlock out s).EndsWell s 0 fun _ => True :=
  (readCounts_endsWell hf).seq fun c _ h1 _ =>
  (readFields_endsWell (by decide) c.ncode h1.healthy).seq fun vals _ h2 _ =>
  (buildOrFail_endsWell (arrangeLengths vals) h2.healthy).seq fun code _ h3 _ =>
  (decodeLengths_endsWell code c.nlen h3.healthy).seq fun lens _ h4 _ =>
  (decodeLengths_endsWell code c.ndist h4.healthy).seq fun dists _ h5 _ =>
  (buildOrFail_endsWell lens h5.healthy).seq fun lenCode _ h6 _ =>
  (buildOrFail_endsWell dists h6.healthy).seq fun distCode _ h7 _ =>
    decodeBody_endsWell lenCode distCode out h7.healthy

theorem copyRaw_endsWell : ∀ (count : Nat) (out : List Byte) {s : State}, s.failed = false →
    (copyRaw count out s).EndsWell s 0 fun _ => True
  | 0, _, _, hf => Reply.endsWell_done hf trivial
  | count + 1, _, _, hf =>
    (readField_endsWell (n := 8) (by decide) hf).seq fun _ _ ht _ => copyRaw_endsWell count _ ht.healthy

theorem storedBlock_endsWell (ha : s.alignPresent = true) (out : List Byte) (hf : s.failed = false) :
    (storedBlock out s).EndsWell s 0 fun _ => True :=
  (align_endsWell ha hf).seq fun _ _ ht _ =>
  (readField_endsWell (n := 16) (by decide) ht.healthy).seq fun len _ hu _ =>
  (readField_endsWell (n := 16) (by decide) hu.healthy).seq fun _ _ hv _ =>
    Reply.endsWell_ite (fun _ => copyRaw_endsWell len out hv.healthy)
      fun _ => Reply.endsWell_fail hv.healthy (by decide) (by decide)

/-- The dispatch begins a stored block only where `ALIGN` is a command (R103). -/
theorem runBlock_endsWell (blockType : Nat) (out : List Byte) (hf : s.failed = false) :
    (runBlock blockType out s).EndsWell s 0 fun _ => True := by
  match blockType with
  | 0 =>
    cases ha : s.alignPresent with
    | true => rw [runBlock_stored ha]; exact storedBlock_endsWell ha out hf
    | false => rw [runBlock_stored_absent ha]; exact Reply.endsWell_fail hf (by decide) (by decide)
  | 1 => rw [runBlock_fixed]; exact fixedBlock_endsWell out hf
  | 2 => rw [runBlock_dynamic]; exact dynamicBlock_endsWell out hf
  | n + 3 =>
    rw [runBlock_invalid (Nat.le_add_left 3 n)]
    exact Reply.endsWell_fail hf (by decide) (by decide)

/-- A header costs bits (R101). -/
theorem readHeader_endsWell (hf : s.failed = false) : (readHeader s).EndsWell s 1 fun _ => True :=
  (readField_endsWell (n := 1) (by decide) hf).andThen (k := 0) fun _ _ ht _ =>
  (readField_endsWell (n := 2) (by decide) ht.healthy).seq fun _ _ hu _ =>
    Reply.endsWell_done hu.healthy trivial

/-- Each block costs its header, so there are no more blocks than bits left (log 18). -/
theorem driverLoop_endsWell : ∀ (fuel : Nat) (out : List Byte) {s : State}, s.failed = false →
    s.bitsLeft < fuel → (driverLoop fuel out s).EndsWell s 0 fun _ => True
  | fuel + 1, out, s, hf, hfuel =>
    (readHeader_endsWell hf).seq fun hd t ht _ =>
    (runBlock_endsWell hd.blockType out ht.healthy).seq fun out' u hu _ =>
      Reply.endsWell_ite (fun _ => Reply.endsWell_done hu.healthy trivial) fun _ =>
        driverLoop_endsWell fuel out' hu.healthy (by have := ht.bitsLeft; have := hu.bitsLeft; omega)

theorem inflate_endsWell (hf : s.failed = false) : (inflate s).EndsWell s 0 fun _ => True :=
  driverLoop_endsWell _ [] hf (Nat.lt_succ_self _)

end EndsWell

/-! ## Whole sessions -/

/-- A session of a failed reader meets the failure in its first read (60_exceptions.md R143). -/
theorem inflate_failed {s : State} (hf : s.failed = true) : ∃ t, inflate s = .fail .endOfInput t :=
  ⟨_, by rw [inflate, driverLoop, readHeader, readField_failed (n := 1) (by decide) hf]; rfl⟩

/-- Settles O56: the failing end of `inflate_endsWell`. -/
theorem onlyEndOfInputFailsTheReader : Obligations.OnlyEndOfInputFailsTheReader := by
  intro e s t hf hfail
  have hends := inflate_endsWell hf
  rw [hfail] at hends
  cases hends with
  | fail hbad hend => exact ⟨hend, hbad⟩

/-- Settles O57: a reader that has not failed ends well, and a failed one fails at once. -/
theorem sessionsAlwaysEnd : Obligations.SessionsAlwaysEnd := by
  intro s t
  cases hf : s.failed with
  | true =>
    obtain ⟨u, hu⟩ := inflate_failed hf
    exact ⟨by simp [hu], by simp [hu]⟩
  | false =>
    have hends := inflate_endsWell hf
    refine ⟨fun hfuel => ?_, fun hresp hstuck => ?_⟩
    · rw [hfuel] at hends
      cases hends
    · rw [hstuck] at hends
      cases hends with
      | stuck hsilent => exact hsilent hresp

/-- Settles O58: the successful end of `inflate_endsWell`, and the invariant of the reader it leaves. -/
theorem successfulSessionPullsNoByteTooMany : Obligations.SuccessfulSessionPullsNoByteTooMany := by
  intro out s t hinv hf hresp hdone
  have hends := inflate_endsWell hf
  rw [hdone] at hends
  cases hends with
  | done hon _ =>
    have hlive : t.Live := ⟨hon.inv hinv, hon.healthy, hon.responsive hresp⟩
    exact ⟨hlive.inv, hlive.healthy, hon.src, hlive.srcPos_eq⟩

end Sys2Proof.Machine
end

section
/-!
PROOF. The statements of 60_exceptions.md: a reserved word, a reader that has failed, the order of a command's
checks, the outcomes as a model reads them, and the idle unit.
-/

namespace Sys2Proof.Machine

/-! ## Reserved words -/

/-- Raising `BadRequest`, written out: "`failed <- 1`, no pull, no other state change" (R141). -/
theorem State.raiseBadRequest_fields (s : State) :
    s.raiseBadRequest = { s with failed := true, rsp := some .badRequest, inFlight := none } := by
  rw [State.raiseBadRequest_eq, State.respond, failedAfter_badRequest]

/-- The terms that no word decodes to are answered as a reserved word is (log 12). -/
theorem exec_reserved {i : Instr} {s : State}
    (h : i.wellFormed = false ∨ (i = .align ∧ s.alignPresent = false)) :
    exec i s = .next s.raiseBadRequest := by
  rcases h with hw | ⟨rfl, ha⟩
  · cases i with
    | read n => exact exec_read_reserved hw
    | align => cases hw
  · exact exec_align_absent ha

/-! ## How a model reads a next state (R153) -/

section
variable {t : State}

theorem reading_of_endOfInput (h : t.rsp = some .endOfInput) :
    reading (.next t) = .fault .endOfInput := by
  simp [reading, h]

theorem reading_of_badRequest (h : t.rsp = some .badRequest) :
    reading (.next t) = .refused .reservedWord := by
  simp [reading, h]

theorem reading_of_ok {v : Half} (h : t.rsp = some (.ok v)) : reading (.next t) = .next t := by
  simp [reading, h]

end

/-- An accepted reserved word is a refusal, whatever the reader holds. -/
theorem reading_accept_of_reserved {w : Byte} {s : State} {why : Reserved}
    (hd : decode s.alignPresent w = .reserved why) : reading (accept w s) = .refused .reservedWord := by
  rw [accept_of_reserved hd]
  exact reading_of_badRequest rfl

/-- Settles O33: the port hands the word to `accept`, and `State.raiseBadRequest` is what it answers. -/
theorem reservedWordAnswersBadRequest : Obligations.ReservedWordAnswersBadRequest := by
  refine ⟨fun s w rest why he hready hd => ?_, fun i s h => ?_⟩
  · have hd' : decode ({ s with env := rest } : State).alignPresent w = .reserved why := hd
    rw [step_of_cmd_of_ready he hready]
    exact ⟨by rw [accept_of_reserved hd', State.raiseBadRequest_fields], reading_accept_of_reserved hd'⟩
  · rw [exec_reserved h, State.raiseBadRequest_fields]

/-! ## A reader that has failed -/

/-- Every legal command of a failed reader answers `EndOfInput` (R143). -/
theorem exec_legal_of_failed {i : Instr} {s : State} (hf : s.failed = true) (hw : i.wellFormed = true)
    (hap : i = .align → s.alignPresent = true) : exec i s = .next (s.respond .endOfInput) := by
  cases i with
  | read n => exact exec_read_failed hw hf
  | align => exact exec_align_failed (hap rfl) hf

/-- A word that decodes to a command is a legal one, so a failed reader answers it `EndOfInput`. -/
theorem accept_command_of_failed {w : Byte} {i : Instr} {s : State} (hf : s.failed = true)
    (hd : decode s.alignPresent w = .command i) : accept w s = .next (s.respond .endOfInput) := by
  obtain ⟨-, hw, hap⟩ := encode_of_decode hd
  rw [accept_of_command hd, exec_legal_of_failed hf hw hap]

theorem exec_keeps_failed {i : Instr} {s t : State} (hf : s.failed = true) (he : exec i s = .next t) :
    t.failed = true := by
  obtain ⟨r, hr⟩ := exec_of_failed i s.alignPresent
  cases (hr s hf rfl).symm.trans he
  rw [State.respond_of_failed hf]
  exact hf

/-- Only a reset clears `failed` (R143). -/
theorem step_keeps_failed {s t : State} (hf : s.failed = true)
    (hn : ∀ src ds rest, s.env ≠ .rst src ds :: rest) (hs : step s = .next t) : t.failed = true := by
  rcases step_cases_of_not_reset hn hs with ⟨r, rest, -, -, rfl⟩ | ⟨w, rest, -, -, -, rfl⟩ |
    ⟨i, rest, -, he⟩ | ⟨rest, -, -, rfl⟩
  · exact hf
  · exact failedAfter_badRequest _
  · exact exec_keeps_failed (s := { s with env := rest }) hf he
  · exact hf

/-- Settles O34: both answers of a failed reader change the response alone, and `step_keeps_failed`. -/
theorem failureIsSticky : Obligations.FailureIsSticky := by
  refine ⟨fun i s hf hw hap => ?_, fun w s why hf hd => ?_, fun s t => step_keeps_failed⟩
  · rw [exec_legal_of_failed hf hw hap, State.respond_of_failed hf]
  · rw [accept_of_reserved hd, State.raiseBadRequest_eq, State.respond_of_failed hf]

/-! ## The order of the checks -/

/-- The last two of R144's checks, past the word and `failed`: the end of the source, or a value. -/
theorem readBits_rsp {s : State} (h : s.Inv) (hf : s.failed = false) {n : Nat} (hn : n ≤ 16) :
    if 8 * s.src.length < s.streamPos + n then (readBits n s).rsp = some .endOfInput
    else ∃ v, (readBits n s).rsp = some (.ok v) := by
  split_ifs with hlen
  · exact (readBits_endOfInput_iff h hf hn).mpr hlen
  · exact ⟨_, by rw [readBits_enough h hf hn (Nat.le_of_not_lt hlen)]⟩

/-- Settles O35: what the decoder makes of the word, `failed` and the source's end choose the answer, each
where those before it have not. -/
theorem checksComeInTheirOrder : Obligations.ChecksComeInTheirOrder := by
  intro w s t hinv ha _
  refine ⟨fun why hd => ?_, fun i hd hf => ?_, fun n hd hf hready => ?_, fun hd hf => ?_⟩
  · cases (accept_of_reserved hd).symm.trans ha
    rfl
  · cases (accept_command_of_failed hf hd).symm.trans ha
    rfl
  · obtain ⟨-, hw, -⟩ := encode_of_decode hd
    cases (exec_read_ready hw hf hready).symm.trans ((accept_of_command hd).symm.trans ha)
    exact readBits_rsp hinv hf (countOperand_le hw)
  · obtain ⟨-, -, hap⟩ := encode_of_decode hd
    cases (exec_align_ready (hap rfl) hf).symm.trans ((accept_of_command hd).symm.trans ha)
    rfl

/-! ## The outcomes as a model reads them -/

/-- A `READ` in flight, one of whose pulls is never answered once those before it are, is held as it stands
(20_memory.md R44), whatever the port shows. -/
theorem State.stuck_of_never {n : BitVec 5} {k : Nat} {s : State} (hn : n.toNat ≤ 16) (hf : s.failed = false)
    (hi : s.inFlight = some (.read n)) (he : s.env = []) (hk : k < s.pullsMade n.toNat)
    (h0 : s.delays.take k = List.replicate k (.after 0)) (hnever : s.delays[k]? = some .never) :
    s.Stuck := by
  have hsame : s.hold (.read n) = s := by
    simp only [State.hold, tickDelays_of_never h0 hnever, ← hi]
  refine ⟨by rw [hi]; rfl, ?_⟩
  rw [step_of_env_nil he, continueInFlight_of_inFlight hi,
    exec_read_silent (wellFormed_read_of_le hn) hf (sourceSilent_of_never hk hnever), hsame]

/-- Settles O37: each row is the answer of a command, read by the response it carries; the stuck row is
`State.stuck_of_never`. -/
theorem outcomesReadAsTheTableSays : Obligations.OutcomesReadAsTheTableSays := by
  refine ⟨fun n s hinv hf hn hready => ?_, fun s hf ha => ?_, fun w s why => reading_accept_of_reserved,
    fun n k s => State.stuck_of_never, fun w i s hf hd => ?_⟩
  · have hrsp := readBits_rsp hinv hf hn
    rw [exec_read_ready (wellFormed_read_of_le hn) hf hready]
    split_ifs at hrsp ⊢
    · exact reading_of_endOfInput hrsp
    · obtain ⟨v, hv⟩ := hrsp
      exact ⟨_, v, reading_of_ok hv, hv⟩
  · rw [exec_align_ready ha hf]
    exact ⟨_, reading_of_ok rfl, rfl⟩
  · rw [accept_command_of_failed hf hd]
    exact reading_of_endOfInput rfl

/-! ## The idle unit -/

/-- Settles O38: with no event and no command in flight there is nothing to go on with. -/
theorem idleUnitHoldsItsState : Obligations.IdleUnitHoldsItsState := by
  intro s he hi
  rw [step_of_env_nil he, continueInFlight_of_none hi]

end Sys2Proof.Machine
end

section
/-!
PROOF. The statements of 70_reset_and_hazards.md: what a reset drops, that no step stops the model, and that a
source which answers every pull has every command answered.
-/

namespace Sys2Proof.Machine

/-! ## Reset and the next state -/

/-- Settles O2: the step is `State.restart`, whose fields are the reset values; nothing is in flight or pending
after it. -/
theorem restartDropsEverythingInProgress : Obligations.RestartDropsEverythingInProgress :=
  fun _ _ _ _ he => ⟨step_of_rst he, rfl⟩

/-- Settles O39: `exec` by `exec_eq_next`; a step resets, takes a response, or runs what `accept` or the
command in flight gives. -/
theorem everyStepAnswersANextState : Obligations.EveryStepAnswersANextState :=
  ⟨exec_eq_next, step_eq_next⟩

/-! ## Progress (R170) -/

/-- A command in flight leaves no response to take and no port ready for a word, so a step without a reset goes
on with it. -/
theorem State.Inv.step_of_inFlight {i : Instr} {s : State} (h : s.Inv) (hi : s.inFlight = some i)
    (hn : s.NoReset) :
    ∃ rest, step s = exec i { s with env := rest } ∧ State.NoReset { s with env := rest } := by
  rcases step_cases s with ⟨src, ds, rest, he, -⟩ | ⟨r, rest, -, hr, -⟩ | ⟨w, rest, -, hready, -⟩ |
    ⟨rest, hrest, -, -, -, hs⟩
  · exact absurd (he ▸ List.mem_cons_self) (hn src ds)
  · simp [h.rsp_none_of_inFlight hi] at hr
  · simp [State.cmdReady, hi] at hready
  · have hsub : rest ⊆ s.env := by
      rcases hrest with he | he <;> simp [he]
    exact ⟨rest, hs.trans (continueInFlight_of_inFlight hi), fun src ds hmem => hn src ds (hsub hmem)⟩

/-- Waiting leaves every delay finite, and is one step shorter after each step of it. -/
theorem State.SourceResponsive.hold {n : Nat} {s : State} (h : s.SourceResponsive) (hn : n ≤ 16)
    (hsilent : s.sourceSilent n = true) (i : Instr) :
    (s.hold i).SourceResponsive ∧ (s.hold i).patience + 1 = s.patience := by
  obtain ⟨hlater, hmade, hsum⟩ := tickDelays_spec s.delays (s.pullsMade n) hsilent
    fun hmem => h (List.mem_of_mem_take hmem)
  refine ⟨fun hmem => ?_, congrArg (· + 1) (hsum maxPulls (pullsMade_le hn s))⟩
  rw [State.hold_delays, ← List.take_append_drop (s.pullsMade n) (tickDelays s.delays), hlater] at hmem
  rcases List.mem_append.mp hmem with hmem | hmem
  · exact hmade hmem
  · exact h (List.mem_of_mem_drop hmem)

/-- By induction on the patience: each step answers the command in flight, or holds it and shortens the wait. -/
theorem State.Inv.answered_within {i : Instr} : ∀ (p : Nat) {s : State}, s.Inv → s.inFlight = some i →
    s.SourceResponsive → s.NoReset → s.patience = p →
    ∃ k t r, k ≤ p ∧ core.run k s = .next t ∧ t.inFlight = none ∧ t.rsp = some r
  | 0, s, _, _, _, _, hp => absurd hp (Nat.succ_ne_zero _)
  | p + 1, s, h, hi, hresp, hn, hp => by
    obtain ⟨rest, hs, hrest⟩ := h.step_of_inFlight hi hn
    obtain ⟨t, he⟩ := exec_eq_next i { s with env := rest }
    have hstep : step s = .next t := hs.trans he
    rcases exec_answers_or_holds he with ⟨hr, hfl⟩ | ⟨rfl, -, n, -, hw, hsilent⟩
    · obtain ⟨r, hr⟩ := Option.isSome_iff_exists.mp hr
      exact ⟨1, t, r, Nat.le_add_left 1 p, run_succ_of_step 0 hstep, hfl, hr⟩
    · have hresp' : State.SourceResponsive { s with env := rest } := hresp
      obtain ⟨hlater, hshorter⟩ := hresp'.hold (countOperand_le hw) hsilent i
      have hp' : (State.hold i { s with env := rest }).patience = p :=
        Nat.succ.inj (hshorter.trans hp)
      obtain ⟨k, t, r, hk, hrun, hanswered⟩ :=
        State.Inv.answered_within p (step_keeps_inv h hstep) rfl hlater hrest hp'
      exact ⟨k + 1, t, r, Nat.succ_le_succ hk, (run_succ_of_step k hstep).trans hrun, hanswered⟩

/-- Settles O40: `State.patience` is the number of steps `State.Inv.answered_within` needs. -/
theorem responsiveSourceAnswersEveryCommand : Obligations.ResponsiveSourceAnswersEveryCommand :=
  fun _ s h hi hresp hn => h.answered_within s.patience hi hresp hn rfl

end Sys2Proof.Machine
end
